-- ==== Sys2Proof/Word.lean ====
section
/-! DEFINITION. The words of the machine (spec 00 R8, 30 R61): every register, byte and field is an unsigned bit field. -/

namespace Sys2Proof

/-- A memory byte or a general register (10 R10, R17). -/
abbrev Byte := BitVec 8

/-- The width of PC, I, a stack entry and an instruction word (10 R12 to R14, 30 R60). -/
abbrev Word := BitVec 16

/-- The X or Y field: a register number 0 to 15 (30 R61), or a key number on the 4-bit key port (00 R6). -/
abbrev Nibble := BitVec 4

/-- The NNN field, a 12-bit address (30 R61). -/
abbrev Addr12 := BitVec 12

/-- The framebuffer, row-major: row y is 64 bits and bit x of it is the pixel in column x, so that the 32 rows one
after another are the output port `fb[2047:0]`, bit y*64 + x (00 R6, 10 R18). -/
abbrev Screen := Vector (BitVec 64) 32

end Sys2Proof
end

