-- ==== Sys2Proof/Machine/Flags.lean ====
section
/-! DEFINITION. The flag computations: every value VF receives as a flag is 0 or 1 (spec 10 R11, 43 R125 to R129). -/

namespace Sys2Proof.Machine

/-- A flag as the byte written to VF (10 R11). -/
def flagByte (b : Bool) : Byte := if b then 1 else 0

/-- 1 iff the sum of the operands is over 255 (43 R125). -/
def carryFlag (a b : Byte) : Byte := flagByte (decide (a.toNat + b.toNat > 255))

/-- 1 iff a - b needs no borrow, equality included (43 R126, R128). -/
def noBorrowFlag (a b : Byte) : Byte := flagByte (decide (a.toNat ≥ b.toNat))

/-- Bit 0, the bit a right shift moves out (43 R127). -/
def lowBitFlag (a : Byte) : Byte := flagByte (a.getLsbD 0)

/-- Bit 7, the bit a left shift moves out (43 R129). -/
def highBitFlag (a : Byte) : Byte := flagByte (a.getLsbD 7)

end Sys2Proof.Machine
end

