-- ==== Sys2Proof/Config.lean ====
section
/-! DEFINITION. The parameters of the hardware (spec 00 R3, 93 section 3) and its one free value, the random byte.
The font and MEM_INIT, which the spec leaves open with a default, stand in Machine/Params.lean. -/

namespace Sys2Proof

/-- MEM_SIZE (00 R3, 20 R40). -/
def Config.memSize : Nat := 4096

/-- PROG_BASE (00 R3): where a program is loaded and where PC starts. -/
def Config.progBase : Nat := 0x200

/-- PROG_MAX = MEM_SIZE - PROG_BASE (00 R3, 70 R253). -/
def Config.progMax : Nat := 3584

/-- STACK_DEPTH (00 R3, 10 R14). -/
def Config.stackDepth : Nat := 16

/-- FB_WIDTH (00 R3). -/
def Config.fbWidth : Nat := 64

/-- FB_HEIGHT (00 R3). -/
def Config.fbHeight : Nat := 32

/-- The free 8-bit input `rand`, as sampled by the n-th random instruction (41 R103, D19): no body, so nothing about
its value can be proved, and a claim holds for every value. Safe: log 3. -/
opaque Config.randByte : Nat → Byte

end Sys2Proof
end

