-- ==== Sys2Proof/Machine/Params.lean ====
section
/-! DEFINITION. The parameters the spec leaves open with a default (93 section 3): the font's place and bytes, and
what memory holds at power-on. -/

namespace Sys2Proof

/-- FONT_BASE at the spec's default (00 R3, 20 R42, D10). DESIGN CHOICE, unsafe: log 7. -/
def Config.fontBase : Nat := 0x050

/-- GLYPH_BYTES (00 R3, 20 R42). -/
def Config.glyphBytes : Nat := 5

/-- MEM_INIT at the spec's default (00 R3, D23): every byte outside the font at power-on. DESIGN CHOICE, unsafe:
log 8. -/
def Config.memInit : Byte := 0x00

/-- The sixteen glyphs of 20 R42, one row a digit. DESIGN CHOICE, unsafe: log 7. -/
def Config.font : List Byte :=
  [0xF0, 0x90, 0x90, 0x90, 0xF0] ++ [0x20, 0x60, 0x20, 0x20, 0x70] ++
  [0xF0, 0x10, 0xF0, 0x80, 0xF0] ++ [0xF0, 0x10, 0xF0, 0x10, 0xF0] ++
  [0x90, 0x90, 0xF0, 0x10, 0x10] ++ [0xF0, 0x80, 0xF0, 0x10, 0xF0] ++
  [0xF0, 0x80, 0xF0, 0x90, 0xF0] ++ [0xF0, 0x10, 0x20, 0x40, 0x40] ++
  [0xF0, 0x90, 0xF0, 0x90, 0xF0] ++ [0xF0, 0x90, 0xF0, 0x10, 0xF0] ++
  [0xF0, 0x90, 0xF0, 0x90, 0x90] ++ [0xE0, 0x90, 0xE0, 0x90, 0xE0] ++
  [0xF0, 0x80, 0x80, 0x80, 0xF0] ++ [0xE0, 0x90, 0x90, 0x90, 0xE0] ++
  [0xF0, 0x80, 0xF0, 0x80, 0xF0] ++ [0xF0, 0x80, 0xF0, 0x80, 0x80]

end Sys2Proof
end

