-- ==== Sys2Proof/Syntax.lean ====
section
/-! DEFINITION. The 34 instructions (spec 30 R65), one constructor per row of spec/opcode_table.json. A field the
operation ignores (the low nibble `d` of 5XY- and 9XY-, the Y of SHR and SHL; 30 R67) is kept, so that an instruction
is exactly a legal word. -/

namespace Sys2Proof

/-- The base CHIP-8 set of 30 R65. `x`, `y`: register fields; `kk`, `nnn`: immediates; `n`: the row count. -/
inductive Instr where
  /-- 00E0 CLS, clear screen (40 R81). -/
  | cls
  /-- 00EE RET, return (40 R82). -/
  | ret
  /-- 1NNN JP NNN, jump (40 R83). -/
  | jp (nnn : Addr12)
  /-- BNNN JP V0, NNN, jump with offset (40 R84). -/
  | jpV0 (nnn : Addr12)
  /-- 2NNN CALL NNN (40 R85). -/
  | call (nnn : Addr12)
  /-- 3XKK SE VX, KK (40 R86). -/
  | seImm (x : Nibble) (kk : Byte)
  /-- 4XKK SNE VX, KK (40 R87). -/
  | sneImm (x : Nibble) (kk : Byte)
  /-- 5XY- SE VX, VY; `d` is ignored (40 R88, 30 R67). -/
  | seReg (x y d : Nibble)
  /-- 9XY- SNE VX, VY; `d` is ignored (40 R89, 30 R67). -/
  | sneReg (x y d : Nibble)
  /-- 6XKK LD VX, KK (41 R100). -/
  | ldImm (x : Nibble) (kk : Byte)
  /-- 7XKK ADD VX, KK (41 R101). -/
  | addImm (x : Nibble) (kk : Byte)
  /-- ANNN LD I, NNN (41 R102). -/
  | ldI (nnn : Addr12)
  /-- CXKK RND VX, KK (41 R103). -/
  | rnd (x : Nibble) (kk : Byte)
  /-- DXYN DRW VX, VY, N (42 R110). -/
  | drw (x y n : Nibble)
  /-- 8XY0 LD VX, VY (43 R121). -/
  | ldReg (x y : Nibble)
  /-- 8XY1 OR VX, VY (43 R122). -/
  | orReg (x y : Nibble)
  /-- 8XY2 AND VX, VY (43 R123). -/
  | andReg (x y : Nibble)
  /-- 8XY3 XOR VX, VY (43 R124). -/
  | xorReg (x y : Nibble)
  /-- 8XY4 ADD VX, VY (43 R125). -/
  | addReg (x y : Nibble)
  /-- 8XY5 SUB VX, VY (43 R126). -/
  | subReg (x y : Nibble)
  /-- 8XY6 SHR VX; `y` is ignored (43 R127, 30 R67). -/
  | shr (x y : Nibble)
  /-- 8XY7 SUBN VX, VY (43 R128). -/
  | subnReg (x y : Nibble)
  /-- 8XYE SHL VX; `y` is ignored (43 R129, 30 R67). -/
  | shl (x y : Nibble)
  /-- EX9E SKP VX (44 R140). -/
  | skp (x : Nibble)
  /-- EXA1 SKNP VX (44 R141). -/
  | sknp (x : Nibble)
  /-- FX07 LD VX, DT (45 R150). -/
  | ldVDt (x : Nibble)
  /-- FX0A LD VX, K (45 R151). -/
  | ldVKey (x : Nibble)
  /-- FX15 LD DT, VX (45 R152). -/
  | ldDtV (x : Nibble)
  /-- FX18 LD ST, VX (45 R153). -/
  | ldStV (x : Nibble)
  /-- FX1E ADD I, VX (45 R154). -/
  | addI (x : Nibble)
  /-- FX29 LD F, VX (45 R155). -/
  | ldFont (x : Nibble)
  /-- FX33 LD B, VX (45 R156). -/
  | bcd (x : Nibble)
  /-- FX55 LD [I], VX: store V[0] to V[X] (45 R157). -/
  | store (x : Nibble)
  /-- FX65 LD VX, [I]: load V[0] to V[X] (45 R158). -/
  | load (x : Nibble)
  deriving DecidableEq, Repr

end Sys2Proof
end

