-- ==== Sys2Proof/Machine/State.lean ====
section
/-! DEFINITION. The state of the machine (spec 10 R10 to R27) as plain data, the state after reset, and the reasons a
machine of the host's interface may stop. -/

namespace Sys2Proof.Machine

/-- RUN, the run state (10 R22); its 2-bit codes are `RunState.code`. -/
inductive RunState where
  /-- 0: the run loop is not running. -/
  | stopped
  /-- 1: each step strobe executes one instruction cycle. -/
  | running
  /-- 2: blocked inside FX0A. -/
  | waitKey
  /-- 3: a fatal error is latched. -/
  | faulted
  deriving DecidableEq, Repr

/-- FAULT, the latched fatal error (10 R24, 60 R200); its 3-bit codes are `FaultCode.code`. -/
inductive FaultCode where
  /-- 0: no fault latched. -/
  | none
  /-- 1: the fetched word matches no instruction (60 R201). -/
  | decode
  /-- 2: a call with sixteen entries in use (60 R202). -/
  | stackOverflow
  /-- 3: a return with none in use (60 R203). -/
  | stackUnderflow
  /-- 4: an address of 4096 or more (60 R204). -/
  | memBounds
  /-- 5: a key skip on a value over 15 (60 R205). -/
  | keyRange
  /-- 6: a load of more than 3584 bytes (60 R206). -/
  | load
  /-- 7: reserved; no run-time event raises it (60 R207). -/
  | config
  deriving DecidableEq, Repr

/-- The atomic transitions of 00 R4. -/
inductive Event where
  /-- (a) one instruction cycle of the interpreter. -/
  | step
  /-- (b) the delay timer's tick (60 R214). -/
  | tickD
  /-- (c) the sound timer's tick (60 R214). -/
  | tickS
  /-- (d) the input collaborator sets key `k` to `p` (60 R215). -/
  | keySet (k : Nibble) (p : Bool)
  /-- (e) the host sets the cancel flag (60 R216). -/
  | cancel
  /-- (f) the construction of the hardware (70 R250). -/
  | powerOn
  /-- (f) the document's Reset() (70 R251). -/
  | reset
  /-- (f) the program load (70 R253). -/
  | load (bytes : List Byte)
  /-- (f) the start of the run loop (70 R254). -/
  | run
  deriving DecidableEq, Repr

/-- MEM as the cells that differ from what an unlisted address reads as, addresses strictly rising
(`Memory.wf`, `Memory.initial` in Machine/Memory.lean). -/
abbrev Memory := List Host.Cell

/-- Everything the spec gives the machine (10 R10 to R24; R26: nothing else), and the model's own three fields. -/
structure State where
  /-- V[0] to V[15] (10 R10); V[15] is VF (10 R11). -/
  v : Vector Byte 16
  /-- I, the index register (10 R12). -/
  i : Word
  /-- PC (10 R13). -/
  pc : Word
  /-- STACK[0] to STACK[15] (10 R14). -/
  stack : Vector Word 16
  /-- SP, the number of entries in use, 0 to 16 (10 R14). -/
  sp : Fin 17
  /-- DT, the delay timer (10 R15). -/
  dt : Byte
  /-- ST, the sound timer (10 R16). -/
  st : Byte
  /-- MEM (10 R17). -/
  mem : Memory
  /-- FB, the framebuffer (10 R18). -/
  fb : Screen
  /-- DIRTY (10 R19). -/
  dirty : Bool
  /-- KEY[0] to KEY[15], true is pressed (10 R20). -/
  key : Vector Bool 16
  /-- KWAIT, a next-key-press request is pending (10 R21). -/
  kwait : Bool
  /-- KREG, the X field of the FX0A that made it (10 R21). -/
  kreg : Nibble
  /-- RUN (10 R22). -/
  run : RunState
  /-- CANCEL (10 R23). -/
  cancel : Bool
  /-- FAULT (10 R24). -/
  fault : FaultCode
  /-- FAULT_INFO (10 R24). -/
  faultInfo : Word
  /-- FAULT_PC (10 R24). -/
  faultPc : Word
  /-- The model's own: how many random bytes were sampled; names the next free byte (41 R103). Log 3. -/
  randCount : Nat
  /-- The model's own: how many `fb_update` strobes were emitted (42 R112). Log 4. -/
  fbUpdates : Nat
  /-- The model's own: the transitions that happen next, oldest first (00 R4). Log 1. -/
  inputs : List Event
  deriving DecidableEq, Repr

/-- The machine right after reset: the power-on column of 10 R27, a fixed point of the operation `reset` (70 R252).
The last three fields are the model's own, DESIGN CHOICE (logs 1, 3, 4). -/
def State.reset : State where
  v := Vector.replicate 16 0
  i := 0
  pc := 0x0200
  stack := Vector.replicate 16 0
  sp := 0
  dt := 0
  st := 0
  mem := []
  fb := Vector.replicate 32 0
  dirty := false
  key := Vector.replicate 16 false
  kwait := false
  kreg := 0
  run := .stopped
  cancel := false
  fault := .none
  faultInfo := 0
  faultPc := 0
  randCount := 0
  fbUpdates := 0
  inputs := []

/-- Reasons to stop with a fault of the host's interface. The fatal faults of 60 R200 are not among them: their entry
is described (60 R208), so they are next states with RUN = FAULTED. -/
inductive Fault where
  /-- CONFIG (60 R207, R219): constructing a generic Timer with a period that is not positive. Raised by
  `Timer.construct` alone, never by a step (log 5). Safe. -/
  | config
  deriving DecidableEq, Repr

/-- Reasons to refuse. -/
inductive Refusal where
  /-- An instruction without a meaning yet; raised by a rejected arm of `exec` alone. Safe. No arm is rejected. -/
  | notModelled (mnemonic : String)
  deriving DecidableEq, Repr

/-- The outcome of a transition or of an instruction's meaning. -/
abbrev Result := Host.Outcome State Fault Refusal

end Sys2Proof.Machine
end

