-- ==== Sys2Proof/Machine/Memory.lean ====
section
/-! DEFINITION. Memory (spec 10 R17, 20 R40 to R49): the initial contents, one byte's read and write, and runs of
bytes. The bounds check of 20 R43 stands in Machine/Ops.lean and precedes every access. -/

namespace Sys2Proof.Machine

/-- What a byte holds that nothing has written since power-on: the font at FONT_BASE, MEM_INIT elsewhere
(10 R17, 20 R41, R42). Logs 7 and 8. -/
def Memory.initial (a : Nat) : Byte :=
  if Config.fontBase ≤ a then Config.font.getD (a - Config.fontBase) Config.memInit else Config.memInit

/-- MEM[a] (20 R43, R49). -/
def Memory.read : Memory → Nat → Byte
  | [], a => Memory.initial a
  | c :: m, a => if c.1 = a then c.2 else Memory.read m a

/-- MEM[a] <- b (20 R43), keeping the canonical form. -/
def Memory.write : Memory → Nat → Byte → Memory
  | [], a, b => if b = Memory.initial a then [] else [(a, b)]
  | c :: m, a, b =>
    if a < c.1 then (if b = Memory.initial a then c :: m else (a, b) :: c :: m)
    else if a = c.1 then (if b = Memory.initial a then m else (a, b) :: m)
    else c :: Memory.write m a b

/-- Byte j of the list goes to address a + j, in ascending order (20 R45). -/
def Memory.writeBytes : Memory → Nat → List Byte → Memory
  | m, _, [] => m
  | m, a, b :: bs => Memory.writeBytes (Memory.write m a b) (a + 1) bs

/-- The n bytes from address a upward (20 R45). -/
def Memory.readBytes (m : Memory) : Nat → Nat → List Byte
  | _, 0 => []
  | a, n + 1 => Memory.read m a :: Memory.readBytes m (a + 1) n

/-- The canonical form: addresses of MEM, strictly rising, no entry equal to what an unlisted address reads as. -/
def Memory.wf : Memory → Bool
  | [] => true
  | c :: m =>
    decide (c.1 < Config.memSize) && (c.2 != Memory.initial c.1) && m.all (fun d => decide (c.1 < d.1)) && Memory.wf m

end Sys2Proof.Machine
end

