-- ==== Sys2Proof/Machine/Ops.lean ====
section
/-! DEFINITION. The named operations over the state: one write per piece of state, the call stack, the bounds check,
and fault entry, which every fault shares (spec 60 R208). -/

namespace Sys2Proof.Machine

/-- V[x] (10 R10): no register is hardwired. -/
def State.getV (s : State) (x : Nibble) : Byte := s.v[x.toNat]

/-- V[x] <- b (10 R10). -/
def State.setV (s : State) (x : Nibble) (b : Byte) : State := { s with v := s.v.set x.toNat b }

/-- The number of VF (00 R3: FLAG_REG). -/
def vf : Nibble := 15

/-- I <- w (10 R12). -/
def State.setI (s : State) (w : Word) : State := { s with i := w }

/-- PC <- w (10 R13). -/
def State.setPc (s : State) (w : Word) : State := { s with pc := w }

/-- nPC of an ordinary instruction: PC + 2 (40 R80). -/
def State.advance (s : State) : State := s.setPc (s.pc + 2)

/-- nPC of a conditional skip: PC + 4 if the condition holds, else PC + 2 (40 R80). -/
def State.skipIf (s : State) (c : Bool) : State := s.setPc (if c then s.pc + 4 else s.pc + 2)

/-- DT <- b (10 R15). -/
def State.setDt (s : State) (b : Byte) : State := { s with dt := b }

/-- ST <- b (10 R16). -/
def State.setSt (s : State) (b : Byte) : State := { s with st := b }

/-- MEM <- m (10 R17). -/
def State.setMem (s : State) (m : Memory) : State := { s with mem := m }

/-- FB <- f (10 R18). -/
def State.setFb (s : State) (f : Screen) : State := { s with fb := f }

/-- DIRTY <- b (10 R19). -/
def State.setDirty (s : State) (b : Bool) : State := { s with dirty := b }

/-- KEY[k] (10 R20). -/
def State.getKey (s : State) (k : Nibble) : Bool := s.key[k.toNat]

/-- KEY[k] <- p (10 R20). -/
def State.setKey (s : State) (k : Nibble) (p : Bool) : State := { s with key := s.key.set k.toNat p }

/-- KWAIT <- b (10 R21). -/
def State.setKwait (s : State) (b : Bool) : State := { s with kwait := b }

/-- KREG <- x (10 R21). -/
def State.setKreg (s : State) (x : Nibble) : State := { s with kreg := x }

/-- RUN <- r (10 R22). -/
def State.setRun (s : State) (r : RunState) : State := { s with run := r }

/-- CANCEL <- b (10 R23). -/
def State.setCancel (s : State) (b : Bool) : State := { s with cancel := b }

/-- FAULT, FAULT_INFO, FAULT_PC <- c, info, p (10 R24). -/
def State.setFault (s : State) (c : FaultCode) (info p : Word) : State :=
  { s with fault := c, faultInfo := info, faultPc := p }

/-- The random byte is sampled: the next one is another (41 R103). -/
def State.countRand (s : State) : State := { s with randCount := s.randCount + 1 }

/-- The free byte the next random instruction samples (41 R103). -/
def State.rand (s : State) : Byte := Config.randByte s.randCount

/-- Emit `fb_update` and clear DIRTY (10 R19, 42 R112). -/
def State.notify (s : State) : State := { s with dirty := false, fbUpdates := s.fbUpdates + 1 }

/-- The end of an instruction that changed the screen or not: one strobe iff it did (42 R112). -/
def State.notifyIf (s : State) (changed : Bool) : State :=
  if changed then (s.setDirty true).notify else s

/-- The next transition is taken from the list of those to come (00 R4). -/
def State.setInputs (s : State) (l : List Event) : State := { s with inputs := l }

/-- Push: STACK[SP] <- w, then SP <- SP + 1; none with sixteen entries in use (10 R14). -/
def State.push (s : State) (w : Word) : Option State :=
  if h : s.sp.val < 16 then
    some { s with stack := s.stack.set s.sp.val w, sp := ⟨s.sp.val + 1, by omega⟩ }
  else none

/-- Pop: SP <- SP - 1, then read STACK[SP], which keeps its value; none with no entry in use (10 R14). -/
def State.pop (s : State) : Option (Word × State) :=
  if h : 0 < s.sp.val then
    some (s.stack[s.sp.val - 1], { s with sp := ⟨s.sp.val - 1, by omega⟩ })
  else none

/-- A fault as it is raised: its code and its information (00 R9, 60 R200). -/
structure Trap where
  code : FaultCode
  info : Word
  deriving DecidableEq, Repr

/-- Fault entry (60 R208), the one operation every fault goes through: the three fault registers are written,
RUN <- FAULTED, KWAIT <- 0, and nothing else changes. -/
def State.enterFault (s : State) (t : Trap) (p : Word) : State :=
  ((s.setFault t.code t.info p).setRun .faulted).setKwait false

/-- A step raises a fault: FAULT_PC is the PC of the faulting instruction (60 R208). There is no return from a fault
but `State.hostReset` and `State.powerOn` (60 R210). -/
def State.raise (s : State) (t : Trap) : State := s.enterFault t s.pc

/-- The check before a run of n byte accesses from `base`: the lowest address of 4096 or more, if one is touched,
is max(base, 4096) (20 R43, 60 R204). -/
def boundsCheck (base : Word) (n : Nat) : Option Trap :=
  if 0 < n ∧ base.toNat + n > Config.memSize then
    some ⟨.memBounds, BitVec.ofNat 16 (max base.toNat Config.memSize)⟩
  else none

/-- A check made before the instruction's first write (60 R209): the fault it found, or the instruction's effect. -/
def State.afterCheck (s : State) (c : Option Trap) (effect : State) : Result :=
  match c with
  | some t => .next (s.raise t)
  | none => .next effect

end Sys2Proof.Machine
end

