-- ==== Sys2Proof/Machine/Operands.lean ====
section
/-! DEFINITION. Operand forms (spec 30 R63): immediates are zero-extended, registers are named by X and Y, the
registers V[0] to V[X] by X as a count, a key by a register's value. -/

namespace Sys2Proof.Machine

/-- zext_16(NNN) (30 R63). -/
def zextAddr (nnn : Addr12) : Word := nnn.zeroExtend 16

/-- zext_16 of a byte (00 R9). -/
def zextByte (b : Byte) : Word := b.zeroExtend 16

/-- zext_8(k) of a key number (60 R215). -/
def zextKey (k : Nibble) : Byte := k.zeroExtend 8

/-- The write order of the flag-writing operations (43 R120): V[15] <- flag, then V[x] <- result. -/
def State.writeFlagThenResult (s : State) (x : Nibble) (flag result : Byte) : State :=
  (s.setV vf flag).setV x result

/-- V[0] to V[X], in ascending order (45 R157). -/
def State.regsUpTo (s : State) (x : Nibble) : List Byte := s.v.toList.take (x.toNat + 1)

/-- V[a] <- the first byte, V[a + 1] <- the next, and so on (45 R158). -/
def State.loadRegs (s : State) : Nat → List Byte → State
  | _, [] => s
  | a, b :: bs => State.loadRegs (s.setV (BitVec.ofNat 4 a) b) (a + 1) bs

/-- The key a register's value names (44 R140): its low four bits once `keyCheck` has found it in range. -/
def keyOf (b : Byte) : Nibble := b.truncate 4

/-- A value over 15 names no key (44 R142). -/
def keyCheck (b : Byte) : Option Trap :=
  if b.toNat > 15 then some ⟨.keyRange, zextByte b⟩ else none

/-- The three decimal digits of a byte: hundreds, tens, ones (45 R156). -/
def bcdDigits (b : Byte) : List Byte :=
  [BitVec.ofNat 8 (b.toNat / 100), BitVec.ofNat 8 (b.toNat / 10 % 10), BitVec.ofNat 8 (b.toNat % 10)]

end Sys2Proof.Machine
end

