-- ==== Sys2Proof/Machine/Alu.lean ====
section
/-! DEFINITION. The register-register family 8XY* (spec 43). The flag writers latch both operands, then write VF, then
V[X] (43 R120), so with X = 15 the result stays and the flag is lost. -/

namespace Sys2Proof.Machine

/-- 8XY0 LD VX, VY (43 R121). -/
def execLdReg (x y : Nibble) (s : State) : Host.Outcome State Fault Refusal :=
  .next (s.setV x (s.getV y)).advance

/-- 8XY1 OR VX, VY (43 R122). -/
def execOrReg (x y : Nibble) (s : State) : Host.Outcome State Fault Refusal :=
  .next (s.setV x (s.getV x ||| s.getV y)).advance

/-- 8XY2 AND VX, VY (43 R123). -/
def execAndReg (x y : Nibble) (s : State) : Host.Outcome State Fault Refusal :=
  .next (s.setV x (s.getV x &&& s.getV y)).advance

/-- 8XY3 XOR VX, VY (43 R124). -/
def execXorReg (x y : Nibble) (s : State) : Host.Outcome State Fault Refusal :=
  .next (s.setV x (s.getV x ^^^ s.getV y)).advance

/-- 8XY4 ADD VX, VY (43 R125). -/
def execAddReg (x y : Nibble) (s : State) : Host.Outcome State Fault Refusal :=
  .next (s.writeFlagThenResult x (carryFlag (s.getV x) (s.getV y)) (s.getV x + s.getV y)).advance

/-- 8XY5 SUB VX, VY (43 R126). -/
def execSubReg (x y : Nibble) (s : State) : Host.Outcome State Fault Refusal :=
  .next (s.writeFlagThenResult x (noBorrowFlag (s.getV x) (s.getV y)) (s.getV x - s.getV y)).advance

/-- 8XY6 SHR VX (43 R127): V[X] in place; the Y field is not used. -/
def execShr (x _y : Nibble) (s : State) : Host.Outcome State Fault Refusal :=
  .next (s.writeFlagThenResult x (lowBitFlag (s.getV x)) (s.getV x >>> 1)).advance

/-- 8XY7 SUBN VX, VY (43 R128). -/
def execSubnReg (x y : Nibble) (s : State) : Host.Outcome State Fault Refusal :=
  .next (s.writeFlagThenResult x (noBorrowFlag (s.getV y) (s.getV x)) (s.getV y - s.getV x)).advance

/-- 8XYE SHL VX (43 R129): V[X] in place; the Y field is not used. -/
def execShl (x _y : Nibble) (s : State) : Host.Outcome State Fault Refusal :=
  .next (s.writeFlagThenResult x (highBitFlag (s.getV x)) (s.getV x <<< 1)).advance

end Sys2Proof.Machine
end

