-- ==== Sys2Proof/Machine/Const.lean ====
section
/-! DEFINITION. Load immediate, add immediate, set index, random (spec 41). -/

namespace Sys2Proof.Machine

/-- 6XKK LD VX, KK (41 R100). -/
def execLdImm (x : Nibble) (kk : Byte) (s : State) : Host.Outcome State Fault Refusal :=
  .next (s.setV x kk).advance

/-- 7XKK ADD VX, KK (41 R101): mod 256, no flag. -/
def execAddImm (x : Nibble) (kk : Byte) (s : State) : Host.Outcome State Fault Refusal :=
  .next (s.setV x (s.getV x + kk)).advance

/-- ANNN LD I, NNN (41 R102). -/
def execLdI (nnn : Addr12) (s : State) : Host.Outcome State Fault Refusal :=
  .next (s.setI (zextAddr nnn)).advance

/-- CXKK RND VX, KK (41 R103): a fresh free byte at each execution (log 3). -/
def execRnd (x : Nibble) (kk : Byte) (s : State) : Host.Outcome State Fault Refusal :=
  .next ((s.setV x (s.rand &&& kk)).countRand).advance

end Sys2Proof.Machine
end

