-- ==== Sys2Proof/WellFormed.lean ====
section
/-! DEFINITION. The opcode map of spec 30 R65 as a table, and the well-formedness check: a word is well formed when it
matches a row. An `Instr` needs no check of its own: each operand has the width of its field, so a term that does not
fit cannot be written. -/

namespace Sys2Proof

/-- One row of the opcode map: a word w is the instruction exactly when `w & mask == value` (30 R65). -/
structure OpcodeRow where
  value : Word
  mask : Word
  deriving DecidableEq, Repr

/-- The row of an instruction, with the table's numbers (30 R65). -/
def Instr.row : Instr → OpcodeRow
  | .cls => ⟨0x00E0, 0xFFFF⟩
  | .ret => ⟨0x00EE, 0xFFFF⟩
  | .jp _ => ⟨0x1000, 0xF000⟩
  | .jpV0 _ => ⟨0xB000, 0xF000⟩
  | .call _ => ⟨0x2000, 0xF000⟩
  | .seImm _ _ => ⟨0x3000, 0xF000⟩
  | .sneImm _ _ => ⟨0x4000, 0xF000⟩
  | .seReg _ _ _ => ⟨0x5000, 0xF000⟩
  | .sneReg _ _ _ => ⟨0x9000, 0xF000⟩
  | .ldImm _ _ => ⟨0x6000, 0xF000⟩
  | .addImm _ _ => ⟨0x7000, 0xF000⟩
  | .ldI _ => ⟨0xA000, 0xF000⟩
  | .rnd _ _ => ⟨0xC000, 0xF000⟩
  | .drw _ _ _ => ⟨0xD000, 0xF000⟩
  | .ldReg _ _ => ⟨0x8000, 0xF00F⟩
  | .orReg _ _ => ⟨0x8001, 0xF00F⟩
  | .andReg _ _ => ⟨0x8002, 0xF00F⟩
  | .xorReg _ _ => ⟨0x8003, 0xF00F⟩
  | .addReg _ _ => ⟨0x8004, 0xF00F⟩
  | .subReg _ _ => ⟨0x8005, 0xF00F⟩
  | .shr _ _ => ⟨0x8006, 0xF00F⟩
  | .subnReg _ _ => ⟨0x8007, 0xF00F⟩
  | .shl _ _ => ⟨0x800E, 0xF00F⟩
  | .skp _ => ⟨0xE09E, 0xF0FF⟩
  | .sknp _ => ⟨0xE0A1, 0xF0FF⟩
  | .ldVDt _ => ⟨0xF007, 0xF0FF⟩
  | .ldVKey _ => ⟨0xF00A, 0xF0FF⟩
  | .ldDtV _ => ⟨0xF015, 0xF0FF⟩
  | .ldStV _ => ⟨0xF018, 0xF0FF⟩
  | .addI _ => ⟨0xF01E, 0xF0FF⟩
  | .ldFont _ => ⟨0xF029, 0xF0FF⟩
  | .bcd _ => ⟨0xF033, 0xF0FF⟩
  | .store _ => ⟨0xF055, 0xF0FF⟩
  | .load _ => ⟨0xF065, 0xF0FF⟩

/-- Does the word match the row (30 R65)? -/
def OpcodeRow.matches (r : OpcodeRow) (w : Word) : Bool := (w &&& r.mask) == r.value

/-- The 34 rows, one operand value each (30 R65); the operands do not enter the row. -/
def opcodeMap : List OpcodeRow :=
  [Instr.cls.row, Instr.ret.row, (Instr.jp 0).row, (Instr.jpV0 0).row, (Instr.call 0).row] ++
  [(Instr.seImm 0 0).row, (Instr.sneImm 0 0).row, (Instr.seReg 0 0 0).row, (Instr.sneReg 0 0 0).row] ++
  [(Instr.ldImm 0 0).row, (Instr.addImm 0 0).row, (Instr.ldI 0).row, (Instr.rnd 0 0).row, (Instr.drw 0 0 0).row] ++
  [(Instr.ldReg 0 0).row, (Instr.orReg 0 0).row, (Instr.andReg 0 0).row, (Instr.xorReg 0 0).row] ++
  [(Instr.addReg 0 0).row, (Instr.subReg 0 0).row, (Instr.shr 0 0).row, (Instr.subnReg 0 0).row] ++
  [(Instr.shl 0 0).row, (Instr.skp 0).row, (Instr.sknp 0).row, (Instr.ldVDt 0).row, (Instr.ldVKey 0).row] ++
  [(Instr.ldDtV 0).row, (Instr.ldStV 0).row, (Instr.addI 0).row, (Instr.ldFont 0).row, (Instr.bcd 0).row] ++
  [(Instr.store 0).row, (Instr.load 0).row]

/-- A word is well formed when some row of the map matches it; every other word is a DECODE fault (30 R66). -/
def WellFormedWord (w : Word) : Bool := opcodeMap.any (fun r => r.matches w)

/-- Two rows that no word matches together: they differ on a bit both fix. -/
def OpcodeRow.disjoint (r q : OpcodeRow) : Bool := (r.value ^^^ q.value) &&& r.mask &&& q.mask != 0

end Sys2Proof
end

