-- ==== Sys2Proof/Decode.lean ====
section
/-! DEFINITION. The decoder (spec 30 R60 to R68) and, after it, the encoder. -/

namespace Sys2Proof

/-- Why a word is no instruction: the four classes of 30 R66, and bytes that end before the word does. -/
inductive DecodeError where
  /-- Fewer than two bytes are left. -/
  | tooShort
  /-- (a) 0x0NNN other than 00E0 and 00EE. -/
  | illegalZero
  /-- (b) 8XYs with a selector that has no row. -/
  | illegalAlu
  /-- (c) EXkk with kk neither 9E nor A1. -/
  | illegalKey
  /-- (d) FXkk with a selector byte that has no row. -/
  | illegalMisc
  deriving DecidableEq, Repr

/-- OP = instr[15:12] (30 R61). -/
def fieldOp (w : Word) : Nibble := w.extractLsb' 12 4

/-- X = instr[11:8] (30 R61). -/
def fieldX (w : Word) : Nibble := w.extractLsb' 8 4

/-- Y = instr[7:4] (30 R61). -/
def fieldY (w : Word) : Nibble := w.extractLsb' 4 4

/-- N = instr[3:0] (30 R61). -/
def fieldN (w : Word) : Nibble := w.extractLsb' 0 4

/-- KK = instr[7:0] (30 R61). -/
def fieldKK (w : Word) : Byte := w.extractLsb' 0 8

/-- NNN = instr[11:0] (30 R61). -/
def fieldNNN (w : Word) : Addr12 := w.extractLsb' 0 12

/-- Family 0: the whole word is matched (30 R64). -/
def decodeZero (w : Word) : Except DecodeError Instr :=
  if w = 0x00E0#16 then .ok .cls
  else if w = 0x00EE#16 then .ok .ret
  else .error .illegalZero

/-- Family 8: selector N (30 R64, R65). -/
def decodeAlu (w : Word) : Except DecodeError Instr :=
  let x := fieldX w
  let y := fieldY w
  match (fieldN w).toNat with
  | 0x0 => .ok (.ldReg x y)
  | 0x1 => .ok (.orReg x y)
  | 0x2 => .ok (.andReg x y)
  | 0x3 => .ok (.xorReg x y)
  | 0x4 => .ok (.addReg x y)
  | 0x5 => .ok (.subReg x y)
  | 0x6 => .ok (.shr x y)
  | 0x7 => .ok (.subnReg x y)
  | 0xE => .ok (.shl x y)
  | _ => .error .illegalAlu

/-- Family E: selector KK (30 R64, R65). -/
def decodeKey (w : Word) : Except DecodeError Instr :=
  if fieldKK w = 0x9E#8 then .ok (.skp (fieldX w))
  else if fieldKK w = 0xA1#8 then .ok (.sknp (fieldX w))
  else .error .illegalKey

/-- Family F: selector KK (30 R64, R65). -/
def decodeMisc (w : Word) : Except DecodeError Instr :=
  let x := fieldX w
  if fieldKK w = 0x07#8 then .ok (.ldVDt x)
  else if fieldKK w = 0x0A#8 then .ok (.ldVKey x)
  else if fieldKK w = 0x15#8 then .ok (.ldDtV x)
  else if fieldKK w = 0x18#8 then .ok (.ldStV x)
  else if fieldKK w = 0x1E#8 then .ok (.addI x)
  else if fieldKK w = 0x29#8 then .ok (.ldFont x)
  else if fieldKK w = 0x33#8 then .ok (.bcd x)
  else if fieldKK w = 0x55#8 then .ok (.store x)
  else if fieldKK w = 0x65#8 then .ok (.load x)
  else .error .illegalMisc

/-- Decode one instruction word by its high nibble and the family's selector (30 R64). -/
def decodeWord (w : Word) : Except DecodeError Instr :=
  match (fieldOp w).toNat with
  | 0x0 => decodeZero w
  | 0x1 => .ok (.jp (fieldNNN w))
  | 0x2 => .ok (.call (fieldNNN w))
  | 0x3 => .ok (.seImm (fieldX w) (fieldKK w))
  | 0x4 => .ok (.sneImm (fieldX w) (fieldKK w))
  | 0x5 => .ok (.seReg (fieldX w) (fieldY w) (fieldN w))
  | 0x6 => .ok (.ldImm (fieldX w) (fieldKK w))
  | 0x7 => .ok (.addImm (fieldX w) (fieldKK w))
  | 0x8 => decodeAlu w
  | 0x9 => .ok (.sneReg (fieldX w) (fieldY w) (fieldN w))
  | 0xA => .ok (.ldI (fieldNNN w))
  | 0xB => .ok (.jpV0 (fieldNNN w))
  | 0xC => .ok (.rnd (fieldX w) (fieldKK w))
  | 0xD => .ok (.drw (fieldX w) (fieldY w) (fieldN w))
  | 0xE => decodeKey w
  | _ => decodeMisc w

/-- The word of two bytes, the first from the lower address (20 R44). -/
def wordOfBytes (hi lo : Byte) : Word := hi ++ lo

/-- The byte at the lower address, instr[15:8] (20 R44). -/
def highByte (w : Word) : Byte := w.extractLsb' 8 8

/-- The byte at the higher address, instr[7:0] (20 R44). -/
def lowByte (w : Word) : Byte := w.extractLsb' 0 8

/-- Decode the first instruction of a byte sequence and give what is left (30 R60: every instruction is two bytes). -/
def decode : List Byte → Except DecodeError (Instr × List Byte)
  | hi :: lo :: rest =>
    match decodeWord (wordOfBytes hi lo) with
    | .ok i => .ok (i, rest)
    | .error e => .error e
  | _ => .error .tooShort

/-- The word of an instruction (30 R62, R65): the fields laid side by side from bit 15 down. -/
def encode : Instr → Word
  | .cls => 0x00E0#16
  | .ret => 0x00EE#16
  | .jp nnn => 0x1#4 ++ nnn
  | .jpV0 nnn => 0xB#4 ++ nnn
  | .call nnn => 0x2#4 ++ nnn
  | .seImm x kk => 0x3#4 ++ x ++ kk
  | .sneImm x kk => 0x4#4 ++ x ++ kk
  | .seReg x y d => 0x5#4 ++ x ++ y ++ d
  | .sneReg x y d => 0x9#4 ++ x ++ y ++ d
  | .ldImm x kk => 0x6#4 ++ x ++ kk
  | .addImm x kk => 0x7#4 ++ x ++ kk
  | .ldI nnn => 0xA#4 ++ nnn
  | .rnd x kk => 0xC#4 ++ x ++ kk
  | .drw x y n => 0xD#4 ++ x ++ y ++ n
  | .ldReg x y => 0x8#4 ++ x ++ y ++ 0x0#4
  | .orReg x y => 0x8#4 ++ x ++ y ++ 0x1#4
  | .andReg x y => 0x8#4 ++ x ++ y ++ 0x2#4
  | .xorReg x y => 0x8#4 ++ x ++ y ++ 0x3#4
  | .addReg x y => 0x8#4 ++ x ++ y ++ 0x4#4
  | .subReg x y => 0x8#4 ++ x ++ y ++ 0x5#4
  | .shr x y => 0x8#4 ++ x ++ y ++ 0x6#4
  | .subnReg x y => 0x8#4 ++ x ++ y ++ 0x7#4
  | .shl x y => 0x8#4 ++ x ++ y ++ 0xE#4
  | .skp x => 0xE#4 ++ x ++ 0x9E#8
  | .sknp x => 0xE#4 ++ x ++ 0xA1#8
  | .ldVDt x => 0xF#4 ++ x ++ 0x07#8
  | .ldVKey x => 0xF#4 ++ x ++ 0x0A#8
  | .ldDtV x => 0xF#4 ++ x ++ 0x15#8
  | .ldStV x => 0xF#4 ++ x ++ 0x18#8
  | .addI x => 0xF#4 ++ x ++ 0x1E#8
  | .ldFont x => 0xF#4 ++ x ++ 0x29#8
  | .bcd x => 0xF#4 ++ x ++ 0x33#8
  | .store x => 0xF#4 ++ x ++ 0x55#8
  | .load x => 0xF#4 ++ x ++ 0x65#8

/-- The two bytes of an instruction, the lower address first (20 R44). -/
def encodeBytes (i : Instr) : List Byte := [highByte (encode i), lowByte (encode i)]

/-- The instruction word of the host's bit numbering: bits 0 to nbits - 1 of w, the bits above them zero; an
instruction is one 16-bit word (30 R60). -/
def tableWord (nbits w : Nat) : Word := BitVec.ofNat 16 (w % 2 ^ nbits)

/-- What the decoder reads from the word w laid out as the hardware stores it, big-endian (20 R44). -/
def decodeTableWord (nbits w : Nat) : Option Instr :=
  match decode [highByte (tableWord nbits w), lowByte (tableWord nbits w)] with
  | .ok (i, _) => some i
  | .error _ => none

end Sys2Proof
end

