-- ==== Sys2Proof/Machine/Screen.lean ====
section
/-! DEFINITION. The framebuffer block's `Draw(x, y, sprite)` (spec 42 R111), written as the rule's loops. -/

namespace Sys2Proof.Machine

/-- The blank screen: every pixel 0 (40 R81). -/
def Screen.blank : Screen := Vector.replicate 32 0

/-- Row y of the grid; no pixel is lit outside it (10 R18). -/
def Screen.rowAt (fb : Screen) (y : Nat) : BitVec 64 := if h : y < 32 then fb[y] else 0

/-- The pixel in column x of row y (10 R18). -/
def Screen.at (fb : Screen) (x y : Nat) : Bool := (Screen.rowAt fb y).getLsbD x

/-- FB[n], which is the pixel in column n mod 64 of row n / 64 (10 R18). -/
def Screen.pixel (fb : Screen) (n : Nat) : Bool := Screen.at fb (n % Config.fbWidth) (n / Config.fbWidth)

/-- The pixel in column x of row y <- itself ^ 1 (42 R111). -/
def Screen.toggle (fb : Screen) (x y : Nat) : Screen :=
  if h : y < 32 then fb.set y (fb[y] ^^^ BitVec.twoPow 64 x) else fb

/-- What a draw carries from pixel to pixel (42 R111). -/
structure DrawState where
  fb : Screen
  collision : Bool
  changed : Bool
  deriving DecidableEq, Repr

/-- One sprite bit of 1 at column px, row py: clipped at the right and bottom edges, else the pixel is toggled and a
pixel that was set is a collision (42 R111). -/
def DrawState.plot (d : DrawState) (px py : Nat) : DrawState :=
  if px < Config.fbWidth ∧ py < Config.fbHeight then
    { fb := Screen.toggle d.fb px py
      collision := d.collision || Screen.at d.fb px py
      changed := true }
  else d

/-- Column c of a sprite row: bit 7 - c of the byte; a bit of 0 leaves the pixel alone (42 R111). -/
def DrawState.column (d : DrawState) (x0 py : Nat) (b : Byte) (c : Nat) : DrawState :=
  if b.getLsbD (7 - c) then d.plot (x0 + c) py else d

/-- The eight columns of a sprite row, bit 7 first (42 R111). -/
def DrawState.row (d : DrawState) (x0 py : Nat) (b : Byte) : DrawState :=
  [0, 1, 2, 3, 4, 5, 6, 7].foldl (fun e c => e.column x0 py b c) d

/-- The rows of a sprite from row py down (42 R111). -/
def DrawState.rows (x0 : Nat) : Nat → DrawState → List Byte → DrawState
  | _, d, [] => d
  | py, d, b :: bs => DrawState.rows x0 (py + 1) (d.row x0 py b) bs

/-- Draw(x, y, sprite): the origin wraps, the extent is clipped (42 R111). -/
def Screen.draw (fb : Screen) (x y : Byte) (sprite : List Byte) : DrawState :=
  DrawState.rows (x.toNat % Config.fbWidth) (y.toNat % Config.fbHeight) ⟨fb, false, false⟩ sprite

end Sys2Proof.Machine
end

