-- ==== Sys2Proof/Machine/Control.lean ====
section
/-! DEFINITION. Clear screen, return, jumps, call and the four skips (spec 40). -/

namespace Sys2Proof.Machine

/-- 00E0 CLS (40 R81): every pixel to 0, one update strobe iff some pixel was 1. -/
def execCls (s : State) : Host.Outcome State Fault Refusal :=
  .next ((s.setFb Screen.blank).notifyIf (decide (s.fb ≠ Screen.blank))).advance

/-- 00EE RET (40 R82): pop into PC, or STACK_UNDERFLOW with the instruction word. -/
def execRet (s : State) : Host.Outcome State Fault Refusal :=
  match s.pop with
  | some (w, t) => .next (t.setPc w)
  | none => .next (s.raise ⟨.stackUnderflow, encode .ret⟩)

/-- 1NNN JP NNN (40 R83). -/
def execJp (nnn : Addr12) (s : State) : Host.Outcome State Fault Refusal :=
  .next (s.setPc (zextAddr nnn))

/-- BNNN JP V0, NNN (40 R84): V[0] always, the sum not reduced to 12 bits. -/
def execJpV0 (nnn : Addr12) (s : State) : Host.Outcome State Fault Refusal :=
  .next (s.setPc (zextAddr nnn + zextByte (s.getV 0)))

/-- 2NNN CALL NNN (40 R85): push PC + 2, or STACK_OVERFLOW with the instruction word. -/
def execCall (nnn : Addr12) (s : State) : Host.Outcome State Fault Refusal :=
  match s.push (s.pc + 2) with
  | some t => .next (t.setPc (zextAddr nnn))
  | none => .next (s.raise ⟨.stackOverflow, encode (.call nnn)⟩)

/-- 3XKK SE VX, KK (40 R86). -/
def execSeImm (x : Nibble) (kk : Byte) (s : State) : Host.Outcome State Fault Refusal :=
  .next (s.skipIf (s.getV x == kk))

/-- 4XKK SNE VX, KK (40 R87). -/
def execSneImm (x : Nibble) (kk : Byte) (s : State) : Host.Outcome State Fault Refusal :=
  .next (s.skipIf (s.getV x != kk))

/-- 5XY- SE VX, VY (40 R88): the low nibble is not looked at (30 R67). -/
def execSeReg (x y _d : Nibble) (s : State) : Host.Outcome State Fault Refusal :=
  .next (s.skipIf (s.getV x == s.getV y))

/-- 9XY- SNE VX, VY (40 R89): the low nibble is not looked at (30 R67). -/
def execSneReg (x y _d : Nibble) (s : State) : Host.Outcome State Fault Refusal :=
  .next (s.skipIf (s.getV x != s.getV y))

end Sys2Proof.Machine
end

