-- ==== Sys2Proof/Machine/Draw.lean ====
section
/-! DEFINITION. Draw sprite (spec 42 R110). -/

namespace Sys2Proof.Machine

/-- The sprite bytes of DXYN: N bytes from I upward (42 R110). -/
def State.sprite (s : State) (n : Nibble) : List Byte := Memory.readBytes s.mem s.i.toNat n.toNat

/-- The end of a draw: FB, the update strobe and the collision flag in VF, which is always written (42 R110, R112). -/
def State.finishDraw (s : State) (d : DrawState) : State :=
  (((s.setFb d.fb).notifyIf d.changed).setV vf (flagByte d.collision)).advance

/-- DXYN DRW VX, VY, N (42 R110): all N bytes are checked first; both coordinates are read before VF is written. -/
def execDrw (x y n : Nibble) (s : State) : Host.Outcome State Fault Refusal :=
  s.afterCheck (boundsCheck s.i n.toNat)
    (s.finishDraw (Screen.draw s.fb (s.getV x) (s.getV y) (s.sprite n)))

end Sys2Proof.Machine
end

