-- ==== Sys2Proof/Machine/Fx.lean ====
section
/-! DEFINITION. The FX** family (spec 45). -/

namespace Sys2Proof.Machine

/-- FX07 LD VX, DT (45 R150). -/
def execLdVDt (x : Nibble) (s : State) : Host.Outcome State Fault Refusal :=
  .next (s.setV x s.dt).advance

/-- FX0A LD VX, K, the first half (45 R151): the request is made and the machine waits with PC at the FX0A. The second
half is part of `State.keySet`. -/
def execLdVKey (x : Nibble) (s : State) : Host.Outcome State Fault Refusal :=
  .next (((s.setKreg x).setKwait true).setRun .waitKey)

/-- FX15 LD DT, VX (45 R152). -/
def execLdDtV (x : Nibble) (s : State) : Host.Outcome State Fault Refusal :=
  .next (s.setDt (s.getV x)).advance

/-- FX18 LD ST, VX (45 R153). -/
def execLdStV (x : Nibble) (s : State) : Host.Outcome State Fault Refusal :=
  .next (s.setSt (s.getV x)).advance

/-- FX1E ADD I, VX (45 R154): mod 65536, no flag. -/
def execAddI (x : Nibble) (s : State) : Host.Outcome State Fault Refusal :=
  .next (s.setI (s.i + zextByte (s.getV x))).advance

/-- The address of the glyph of a digit, FONT_BASE + 5 * VX with the value unmasked (45 R155). -/
def glyphAddr (b : Byte) : Word := BitVec.ofNat 16 (Config.fontBase + Config.glyphBytes * b.toNat)

/-- FX29 LD F, VX (45 R155). -/
def execLdFont (x : Nibble) (s : State) : Host.Outcome State Fault Refusal :=
  .next (s.setI (glyphAddr (s.getV x))).advance

/-- FX33 LD B, VX (45 R156): the three digits at I, I + 1, I + 2, all checked first. -/
def execBcd (x : Nibble) (s : State) : Host.Outcome State Fault Refusal :=
  s.afterCheck (boundsCheck s.i 3)
    (s.setMem (Memory.writeBytes s.mem s.i.toNat (bcdDigits (s.getV x)))).advance

/-- FX55 LD [I], VX (45 R157): V[0] to V[X] from address I upward, all checked first; I unchanged. -/
def execStore (x : Nibble) (s : State) : Host.Outcome State Fault Refusal :=
  s.afterCheck (boundsCheck s.i (x.toNat + 1))
    (s.setMem (Memory.writeBytes s.mem s.i.toNat (s.regsUpTo x))).advance

/-- FX65 LD VX, [I] (45 R158): V[0] to V[X] from address I upward, all checked first; I unchanged. -/
def execLoad (x : Nibble) (s : State) : Host.Outcome State Fault Refusal :=
  s.afterCheck (boundsCheck s.i (x.toNat + 1))
    (s.loadRegs 0 (Memory.readBytes s.mem s.i.toNat (x.toNat + 1))).advance

end Sys2Proof.Machine
end

