-- ==== Sys2Proof/Machine/Key.lean ====
section
/-! DEFINITION. Skip on key state (spec 44). -/

namespace Sys2Proof.Machine

/-- EX9E SKP VX (44 R140): skip if the key V[X] names is pressed; KEY_RANGE over 15. -/
def execSkp (x : Nibble) (s : State) : Host.Outcome State Fault Refusal :=
  s.afterCheck (keyCheck (s.getV x)) (s.skipIf (s.getKey (keyOf (s.getV x))))

/-- EXA1 SKNP VX (44 R141): skip if the key V[X] names is released; KEY_RANGE over 15. -/
def execSknp (x : Nibble) (s : State) : Host.Outcome State Fault Refusal :=
  s.afterCheck (keyCheck (s.getV x)) (s.skipIf (!s.getKey (keyOf (s.getV x))))

end Sys2Proof.Machine
end

