-- ==== Sys2Proof/Machine/Events.lean ====
section
/-! DEFINITION. The transitions of the other agents (spec 00 R4 (b) to (f)): ticks, key changes, cancellation and the
host operations (60 R214 to R216, 70 R250 to R255, R263). -/

namespace Sys2Proof.Machine

/-- A count that holds at zero (60 R214). -/
def countDown (b : Byte) : Byte := if b = 0 then 0 else b - 1

/-- `tick_d` (60 R214), in every run state. -/
def State.tickD (s : State) : State := s.setDt (countDown s.dt)

/-- `tick_s` (60 R214), in every run state. -/
def State.tickS (s : State) : State := s.setSt (countDown s.st)

/-- The second half of FX0A (45 R151): V[KREG] <- k, the request is over, the machine runs on at PC + 2. -/
def State.fulfilKeyWait (s : State) (k : Nibble) : State :=
  (((s.setV s.kreg (zextKey k)).setKwait false).setRun .running).advance

/-- `key_set(k, p)` (60 R215): the key is written first; a released-to-pressed transition fulfils a pending request. -/
def State.keySet (s : State) (k : Nibble) (p : Bool) : State :=
  if !s.getKey k && p && s.kwait then (s.setKey k p).fulfilKeyWait k else s.setKey k p

/-- `cancel` (60 R216). -/
def State.setCancelFlag (s : State) : State := s.setCancel true

/-- The interpreter sees CANCEL in the key wait (70 R255 (b)): the request is dropped and the machine stops with PC at
the FX0A. -/
def State.cancelKeyWait (s : State) : State := (s.setKwait false).setRun .stopped

/-- Is the internal transition of 70 R255 (b) due? It comes before any other (log 14). -/
def State.keyWaitCancelled (s : State) : Bool := (s.run == .waitKey) && s.cancel

/-- `power_on` (70 R250): every element of the machine's state takes its power-on value; no update strobe. The model's
own three fields are the outside's and are kept (log 1, 3, 4). -/
def State.powerOn (s : State) : State :=
  { State.reset with randCount := s.randCount, fbUpdates := s.fbUpdates, inputs := s.inputs }

/-- What `reset` does once it is accepted (70 R251): the font is written again, memory elsewhere and the keys are
kept, one update strobe iff a pixel was 1, and everything else takes its reset value. The model's own other two fields
are kept (log 19). -/
def State.resetMachine (s : State) : State :=
  { State.reset with
    mem := Memory.writeBytes s.mem Config.fontBase Config.font
    key := s.key
    randCount := s.randCount
    fbUpdates := if s.fb = Screen.blank then s.fbUpdates else s.fbUpdates + 1
    inputs := s.inputs }

/-- The host's `reset`: accepted in STOPPED and FAULTED, else ignored (70 R263). -/
def State.hostReset (s : State) : State :=
  match s.run with
  | .stopped => s.resetMachine
  | .faulted => s.resetMachine
  | .running => s
  | .waitKey => s

/-- What `load` does once it is accepted (70 R253): the bytes from PROG_BASE upward; more than PROG_MAX of them is the
fault LOAD after those that fit, with the byte count, saturated, and FAULT_PC = PROG_BASE (60 R206). -/
def State.loadProgram (s : State) (bytes : List Byte) : State :=
  let t := s.setMem (Memory.writeBytes s.mem Config.progBase (bytes.take Config.progMax))
  if bytes.length > Config.progMax then
    t.enterFault ⟨.load, BitVec.ofNat 16 (min bytes.length 0xFFFF)⟩ (BitVec.ofNat 16 Config.progBase)
  else t

/-- The host's `load(bytes)`: accepted in STOPPED, else ignored (70 R263). -/
def State.hostLoad (s : State) (bytes : List Byte) : State :=
  match s.run with
  | .stopped => s.loadProgram bytes
  | .running => s
  | .waitKey => s
  | .faulted => s

/-- The host's `run`: CANCEL <- 0, RUN <- RUNNING; accepted in STOPPED, else ignored (70 R254, R263). -/
def State.hostRun (s : State) : State :=
  match s.run with
  | .stopped => (s.setCancel false).setRun .running
  | .running => s
  | .waitKey => s
  | .faulted => s

/-- The strobes that may coincide at one clock edge (00 R6, R7). -/
structure Strobes where
  por : Bool
  keySet : Option (Nibble × Bool)
  tickD : Bool
  tickS : Bool
  cancel : Bool
  step : Bool
  deriving DecidableEq, Repr

/-- The transitions of one clock edge in their fixed order: key_set, tick_d, tick_s, cancel, step; `por` overrides
everything (00 R7, 60 R217). -/
def Strobes.events (e : Strobes) : List Event :=
  if e.por then [.powerOn]
  else
    (match e.keySet with | some (k, p) => [.keySet k p] | none => []) ++
    (if e.tickD then [.tickD] else []) ++ (if e.tickS then [.tickS] else []) ++
    (if e.cancel then [.cancel] else []) ++ (if e.step then [.step] else [])

end Sys2Proof.Machine
end

