-- ==== Sys2Proof/Machine/Cycle.lean ====
section
/-! DEFINITION. The instruction cycle (spec 40 R80) and the transition an event stands for (00 R4). -/

namespace Sys2Proof.Machine

/-- MEM[PC] and MEM[PC + 1] as a big-endian word (20 R44, 30 R60). -/
def State.fetchedWord (s : State) : Word :=
  wordOfBytes (Memory.read s.mem s.pc.toNat) (Memory.read s.mem (s.pc.toNat + 1))

/-- The fetch: legal exactly for PC <= 0xFFE, else MEM_BOUNDS (30 R60). -/
def State.fetch (s : State) : Except Trap Word :=
  match boundsCheck s.pc 2 with
  | some t => .error t
  | none => .ok s.fetchedWord

/-- Fetch, decode, execute; the first check that fails is the fault (40 R80 (2) to (5), 60 R201, R211). -/
def State.instructionCycle (s : State) : Host.Outcome State Fault Refusal :=
  match s.fetch with
  | .error t => .next (s.raise t)
  | .ok w =>
    match decodeWord w with
    | .ok i => exec i s
    | .error _ => .next (s.raise ⟨.decode, w⟩)

/-- The transition `step` (00 R4 (a)): in RUNNING a set CANCEL stops the machine without a fetch (70 R255 (a)), else
one instruction cycle; in the other run states the strobe is ignored (10 R22). -/
def State.interpreterStep (s : State) : Host.Outcome State Fault Refusal :=
  match s.run with
  | .running => if s.cancel then .next (s.setRun .stopped) else s.instructionCycle
  | .stopped => .next s
  | .waitKey => .next s
  | .faulted => .next s

/-- The transition of an event (00 R4). -/
def State.apply (s : State) : Event → Host.Outcome State Fault Refusal
  | .step => s.interpreterStep
  | .tickD => .next s.tickD
  | .tickS => .next s.tickS
  | .keySet k p => .next (s.keySet k p)
  | .cancel => .next s.setCancelFlag
  | .powerOn => .next s.powerOn
  | .reset => .next s.hostReset
  | .load bytes => .next (s.hostLoad bytes)
  | .run => .next s.hostRun

/-- One transition of the machine: the internal one of 70 R255 (b) if it is due, else the first of the events to come,
else the interpreter's step (log 1, 14). -/
def State.transition (s : State) : Host.Outcome State Fault Refusal :=
  if s.keyWaitCancelled then .next s.cancelKeyWait
  else
    match s.inputs with
    | [] => s.interpreterStep
    | e :: rest => (s.setInputs rest).apply e

end Sys2Proof.Machine
end

