-- ==== Sys2Proof/Machine/Step.lean ====
section
/-! DEFINITION. The machine's step, and the placing of one instruction word where the step fetches. -/

namespace Sys2Proof.Machine

/-- One atomic transition (spec 00 R4). -/
def step (s : State) : Host.Outcome State Fault Refusal := s.transition

/-- Where the next fetch reads: PC, or PROG_BASE if no word can be fetched at PC (30 R60). -/
def State.fetchPlace (s : State) : Word := if s.pc.toNat ≤ 0xFFE then s.pc else BitVec.ofNat 16 Config.progBase

/-- `s` with the word of the host's numbering stored big-endian where the next fetch reads, and the machine running
with no event before that fetch: this stands for the host's load and run (70 R253, R254, R256; log 2). -/
def State.withFetchWord (s : State) (nbits w : Nat) : State :=
  { s with
    pc := s.fetchPlace
    mem := Memory.writeBytes s.mem s.fetchPlace.toNat [highByte (tableWord nbits w), lowByte (tableWord nbits w)]
    run := .running
    cancel := false
    kwait := false
    inputs := [] }

end Sys2Proof.Machine
end

