-- ==== Sys2Proof/Machine/Ports.lean ====
section
/-! DEFINITION. The output ports (spec 00 R6): what the host sees of the state. -/

namespace Sys2Proof.Machine

/-- The 2-bit code of RUN (10 R22). -/
def RunState.code : RunState → BitVec 2
  | .stopped => 0
  | .running => 1
  | .waitKey => 2
  | .faulted => 3

/-- The 3-bit code of FAULT (10 R24, 60 R200). -/
def FaultCode.code : FaultCode → BitVec 3
  | .none => 0
  | .decode => 1
  | .stackOverflow => 2
  | .stackUnderflow => 3
  | .memBounds => 4
  | .keyRange => 5
  | .load => 6
  | .config => 7

/-- The output ports but the strobe `fb_update`, which `fbUpdates` counts (00 R6, log 4). -/
structure Ports where
  fb : Screen
  tone : Bool
  runState : BitVec 2
  faultCode : BitVec 3
  faultInfo : Word
  faultPc : Word
  deriving DecidableEq, Repr

/-- The ports as functions of the state; `tone` is 1 exactly when ST is not 0 (10 R16). -/
def State.ports (s : State) : Ports where
  fb := s.fb
  tone := s.st != 0
  runState := s.run.code
  faultCode := s.fault.code
  faultInfo := s.faultInfo
  faultPc := s.faultPc

end Sys2Proof.Machine
end

