-- ==== Sys2Proof/Machine/Timer.lean ====
section
/-! DEFINITION. The generic countdown primitive Timer(period, repeat, initialCount) and the TimerManager (spec 60 R219,
R220). The core's DT and ST are its `remaining` alone (R221), its phase `last` being no state of the machine (10 R25). -/

namespace Sys2Proof.Machine

/-- A countdown (60 R219): the parameters `period`, `repeats`, and the state `remaining`, `last`. -/
structure Timer where
  period : Nat
  repeats : Bool
  remaining : Nat
  last : Nat
  deriving DecidableEq, Repr

/-- Construction (60 R207, R219): a period that is not positive is the fatal error CONFIG. The spec does not say what
`last` is then, so it is an argument (log 16). -/
def Timer.construct (period : Int) (repeats : Bool) (initialCount last : Nat) : Host.Outcome Timer Fault Refusal :=
  if period ≤ 0 then .fault .config else .next ⟨period.toNat, repeats, initialCount, last⟩

/-- Is a decrement due at time `now` (60 R219)? -/
def Timer.due (t : Timer) (now : Nat) : Bool := decide (t.remaining ≠ 0) && decide (t.last + t.period ≤ now)

/-- Tick(now): at most one decrement; every callback sees the count after it; a repeating timer that reached zero is
set to one (60 R219). The second component is the value the callbacks see, if they are invoked. -/
def Timer.tick (t : Timer) (now : Nat) : Timer × Option Nat :=
  if t.due now then
    let r := t.remaining - 1
    ({ t with remaining := if r = 0 ∧ t.repeats = true then 1 else r, last := now }, some r)
  else (t, none)

/-- TimerManager.Tick(): every live timer once, with one shared clock read (60 R220). -/
def Timer.tickAll (ts : List Timer) (now : Nat) : List (Timer × Option Nat) := ts.map (fun t => t.tick now)

end Sys2Proof.Machine
end

