-- ==== Sys2Proof/Safety.lean ====
section
/-! DEFINITION. The terms claims are stated in: what two states share, what a run must keep, when a machine runs. -/

namespace Sys2Proof.Machine

/-- The pieces of state a claim can say are unchanged (spec 10). -/
inductive Part where
  | regs | index | pc | stack | delay | sound | memory | screen | dirty | keys | keyWait | run | cancel | faults
  | rand | updates | inputs
  deriving DecidableEq, Repr

/-- The two states agree on a piece: every register, every byte of memory as it reads, every stack entry and SP, and so
on. -/
def AgreeOn (s t : State) : Part → Prop
  | .regs => ∀ r, t.getV r = s.getV r
  | .index => t.i = s.i
  | .pc => t.pc = s.pc
  | .stack => t.stack = s.stack ∧ t.sp = s.sp
  | .delay => t.dt = s.dt
  | .sound => t.st = s.st
  | .memory => ∀ a, Memory.read t.mem a = Memory.read s.mem a
  | .screen => t.fb = s.fb
  | .dirty => t.dirty = s.dirty
  | .keys => ∀ k, t.getKey k = s.getKey k
  | .keyWait => t.kwait = s.kwait ∧ t.kreg = s.kreg
  | .run => t.run = s.run
  | .cancel => t.cancel = s.cancel
  | .faults => t.fault = s.fault ∧ t.faultInfo = s.faultInfo ∧ t.faultPc = s.faultPc
  | .rand => t.randCount = s.randCount
  | .updates => t.fbUpdates = s.fbUpdates
  | .inputs => t.inputs = s.inputs

/-- The frame: from s to t nothing changes but the named pieces. -/
def OnlyChanges (ps : List Part) (s t : State) : Prop := ∀ p, p ∉ ps → AgreeOn s t p

/-- The register frame: no register changes but the named ones. -/
def OnlyRegs (xs : List Nibble) (s t : State) : Prop := ∀ r, r ∉ xs → t.getV r = s.getV r

/-- Fault entry from s to t with a code and its information (60 R208, R209): the three fault registers, RUN = FAULTED,
KWAIT = 0, and nothing else. -/
def FaultsWith (c : FaultCode) (info : Word) (s t : State) : Prop :=
  t.fault = c ∧ t.faultInfo = info ∧ t.faultPc = s.pc ∧ t.run = .faulted ∧ t.kwait = false ∧ t.kreg = s.kreg ∧
  OnlyChanges [.faults, .run, .keyWait] s t

/-- The interpreter takes its next transition as an instruction cycle: RUNNING, no cancel, no other event first. -/
def State.cycles (s : State) : Prop := s.run = .running ∧ s.cancel = false ∧ s.inputs = []

/-- The next transition is the interpreter's step, taken from u: s itself if no event is to come, s without the event
`step` if that event is first (00 R4). In a cancelled key wait the internal transition comes before it (log 14). -/
def State.stepFrom (s u : State) : Prop :=
  (s.inputs = [] ∧ u = s) ∨ ∃ rest, s.inputs = .step :: rest ∧ u = s.setInputs rest

/-- The control state is consistent: KWAIT = 1 exactly in WAIT_KEY (10 R21), DIRTY = 0 at instruction boundaries
(10 R19), FAULTED exactly with a fault latched (10 R22, 60 R208), code 7 never (60 R207), and the fault registers zero
while none is (10 R24). -/
structure State.ControlOk (s : State) : Prop where
  waits : s.kwait = true ↔ s.run = .waitKey
  clean : s.dirty = false
  latched : s.fault ≠ .none ↔ s.run = .faulted
  noConfig : s.fault ≠ .config
  infoZero : s.fault = .none → s.faultInfo = 0 ∧ s.faultPc = 0

/-- PC stays where a legal fetch can bring it (10 R13: at most 0x10FE; in a key wait a fetched address) and every return
address a call pushed is at most 0x1000 (10 R14). -/
structure State.AddressesOk (s : State) : Prop where
  pcBound : s.pc.toNat ≤ 0x10FE
  waitBound : s.run = .waitKey → s.pc.toNat ≤ 0xFFE
  stackBound : ∀ j : Fin 16, (s.stack[j.val]).toNat ≤ 0x1000

/-- The machine's invariant. -/
structure State.Inv (s : State) : Prop where
  control : s.ControlOk
  addresses : s.AddressesOk
  memory : Memory.wf s.mem = true

/-- Does a sprite drawn at (x, y) have a bit of 1 over the pixel (u, v), and is that pixel on the grid (42 R111)? The
origin wraps; the extent, 8 columns and one row a byte, is clipped. -/
def covers (x y : Byte) (sprite : List Byte) (u v : Nat) : Bool :=
  decide (x.toNat % 64 ≤ u) && decide (u < x.toNat % 64 + 8) && decide (u < 64) &&
  decide (y.toNat % 32 ≤ v) && decide (v < y.toNat % 32 + sprite.length) && decide (v < 32) &&
  (sprite.getD (v - y.toNat % 32) 0).getLsbD (7 - (u - x.toNat % 64))

/-- The instructions that go on at PC + 2: all but the jumps, call, return, the skips and FX0A (40 R80). -/
def sequential : Instr → Bool
  | .ret | .jp _ | .jpV0 _ | .call _ => false
  | .seImm _ _ | .sneImm _ _ | .seReg _ _ _ | .sneReg _ _ _ | .skp _ | .sknp _ => false
  | .ldVKey _ => false
  | .cls | .ldImm _ _ | .addImm _ _ | .ldI _ | .rnd _ _ | .drw _ _ _ => true
  | .ldReg _ _ | .orReg _ _ | .andReg _ _ | .xorReg _ _ => true
  | .addReg _ _ | .subReg _ _ | .shr _ _ | .subnReg _ _ | .shl _ _ => true
  | .ldVDt _ | .ldDtV _ | .ldStV _ | .addI _ | .ldFont _ | .bcd _ | .store _ | .load _ => true

/-- Can the instruction write the register: as its destination, as the flag VF, or as one of V[0] to V[X] (10 R11,
45 R158)? FX0A writes its register only when a key arrives. -/
def writesReg : Instr → Nibble → Bool
  | .ldImm x _, r | .addImm x _, r | .rnd x _, r | .ldVDt x, r => r == x
  | .ldReg x _, r | .orReg x _, r | .andReg x _, r | .xorReg x _, r => r == x
  | .addReg x _, r | .subReg x _, r | .shr x _, r | .subnReg x _, r | .shl x _, r => r == x || r == 15
  | .drw _ _ _, r => r == 15
  | .load x, r => decide (r.toNat ≤ x.toNat)
  | .cls, _ | .ret, _ | .jp _, _ | .jpV0 _, _ | .call _, _ => false
  | .seImm _ _, _ | .sneImm _ _, _ | .seReg _ _ _, _ | .sneReg _ _ _, _ | .skp _, _ | .sknp _, _ => false
  | .ldI _, _ | .ldVKey _, _ | .ldDtV _, _ | .ldStV _, _ | .addI _, _ | .ldFont _, _ | .bcd _, _ | .store _, _ => false

/-- A safe state: no fault is latched and the machine is not FAULTED (60 R210). -/
def State.safe (s : State) : Bool := (s.fault == .none) && (s.run != .faulted)

end Sys2Proof.Machine
end

