-- ==== Sys2Proof/Certificates/Slice0/Obligations.lean ====
section
/-! DEFINITION. The statements for the provers, each from the spec's numbered rules. -/

open Sys2Proof Sys2Proof.Machine

/-! ### Fetch, decode, the cycle -/

/-- 00 R4, 40 R80: when the word at PC decodes to an instruction, the step is exec of it at that state; with the event
`step` first in the list of those to come, exec at the state without that event. That the events to come are a list in
the state is the model's (log 1). -/
def Obligations.StepRunsDecodedInstruction : Prop :=
  (∀ (s : State) (i : Instr), s.cycles → s.pc.toNat ≤ 0xFFE → decodeWord s.fetchedWord = .ok i → step s = exec i s) ∧
  (∀ (s : State) (i : Instr) (rest : List Event), s.run = .running → s.cancel = false → s.inputs = .step :: rest →
    s.pc.toNat ≤ 0xFFE → decodeWord s.fetchedWord = .ok i → step s = exec i (s.setInputs rest))

/-- 00 R4, 20 R44, 30 R60: an instruction word placed where the next fetch reads is the one the next step runs. The
premise is the canonical form, which every step keeps (StepKeepsMemoryCanonical). The placing is the model's (log 2). -/
def Obligations.PlacedWordIsFetchedAndRun : Prop :=
  ∀ (s : State) (w : Nat) (i : Instr), Memory.wf s.mem = true → decodeTableWord 16 w = some i →
    step (s.withFetchWord 16 w) = exec i (s.withFetchWord 16 w)

/-- 30 R60: the fetch is big-endian, legal exactly for PC <= 0xFFE, else MEM_BOUNDS with the lowest address outside;
every instruction takes two bytes. -/
def Obligations.FetchIsBoundedAndBigEndian : Prop :=
  (∀ s : State, 4096 ≤ s.pc.toNat → s.fetch = .error ⟨.memBounds, s.pc⟩) ∧
  (∀ s : State, s.pc = 0xFFF → s.fetch = .error ⟨.memBounds, 0x1000⟩) ∧
  (∀ s : State, s.pc.toNat ≤ 0xFFE →
    s.fetch = .ok (Memory.read s.mem s.pc.toNat ++ Memory.read s.mem (s.pc.toNat + 1))) ∧
  (∀ (hi lo : Byte) (rest : List Byte),
    (∀ i, decodeWord (hi ++ lo) = .ok i → decode (hi :: lo :: rest) = .ok (i, rest)) ∧
    (∀ e, decodeWord (hi ++ lo) = .error e → decode (hi :: lo :: rest) = .error e))

/-- 60 R204: an address of 4096 or more, in the fetch, DXYN, FX33, FX55 or FX65, is MEM_BOUNDS with the lowest such
address, max(base, 4096), and the PC of the instruction; nothing else changes. The fetch is said for both ways a step
is taken, with no event to come and with the event `step` first. -/
def Obligations.MemBoundsFaults : Prop :=
  (∀ s u : State, s.stepFrom u → u.run = .running → u.cancel = false → 0xFFE < u.pc.toNat →
    ∃ t, step s = .next t ∧ FaultsWith .memBounds (BitVec.ofNat 16 (max u.pc.toNat 4096)) u t) ∧
  (∀ (s : State) (x y n : Nibble), 0 < n.toNat → 4096 < s.i.toNat + n.toNat →
    ∃ t, exec (.drw x y n) s = .next t ∧ FaultsWith .memBounds (BitVec.ofNat 16 (max s.i.toNat 4096)) s t) ∧
  (∀ (s : State) (x : Nibble), 4096 ≤ s.i.toNat + 2 →
    ∃ t, exec (.bcd x) s = .next t ∧ FaultsWith .memBounds (BitVec.ofNat 16 (max s.i.toNat 4096)) s t) ∧
  (∀ (s : State) (x : Nibble), 4096 ≤ s.i.toNat + x.toNat →
    (∃ t, exec (.store x) s = .next t ∧ FaultsWith .memBounds (BitVec.ofNat 16 (max s.i.toNat 4096)) s t) ∧
    (∃ t, exec (.load x) s = .next t ∧ FaultsWith .memBounds (BitVec.ofNat 16 (max s.i.toNat 4096)) s t))

/-- 60 R201: a fetched word that is no instruction is DECODE with the word and its PC; nothing else changes. Said for
both ways a step is taken. -/
def Obligations.DecodeFaultCarriesWord : Prop :=
  ∀ (s u : State) (e : DecodeError), s.stepFrom u → u.run = .running → u.cancel = false → u.pc.toNat ≤ 0xFFE →
    decodeWord u.fetchedWord = .error e →
    ∃ t, step s = .next t ∧ FaultsWith .decode u.fetchedWord u t

/-- 30 R66: the words that are no instruction are exactly the four classes, each refused by its own name. The numeric
patterns are the spec's decision D1 (log 10). -/
def Obligations.IllegalWordsAreTheFourClasses : Prop :=
  ∀ w : Word,
    (decodeWord w = .error .illegalZero ↔ w.toNat / 4096 = 0x0 ∧ w.toNat ≠ 0x00E0 ∧ w.toNat ≠ 0x00EE) ∧
    (decodeWord w = .error .illegalAlu ↔
      w.toNat / 4096 = 0x8 ∧ w.toNat % 16 ∈ [0x8, 0x9, 0xA, 0xB, 0xC, 0xD, 0xF]) ∧
    (decodeWord w = .error .illegalKey ↔ w.toNat / 4096 = 0xE ∧ w.toNat % 256 ∉ [0x9E, 0xA1]) ∧
    (decodeWord w = .error .illegalMisc ↔
      w.toNat / 4096 = 0xF ∧ w.toNat % 256 ∉ [0x07, 0x0A, 0x15, 0x18, 0x1E, 0x29, 0x33, 0x55, 0x65]) ∧
    decodeWord w ≠ .error .tooShort

/-- 30 R65: a word is an instruction exactly when it matches that instruction's row, `w & mask == match`; every
instruction's row is one of the 34. The numeric patterns are the spec's decision D1 (log 10). -/
def Obligations.OpcodeMapDecidesDecoding : Prop :=
  (∀ (w : Word) (i : Instr), decodeWord w = .ok i → w &&& i.row.mask = i.row.value) ∧
  (∀ (w : Word) (i : Instr), w &&& i.row.mask = i.row.value → ∃ j, decodeWord w = .ok j ∧ j.row = i.row) ∧
  (∀ i : Instr, i.row ∈ opcodeMap) ∧ opcodeMap.length = 34

/-- 30 R61, R62, R65, 20 R44: every instruction, with every operand at every value, decodes from its own word and its
own bytes, and every word that decodes is the word of what it decodes to: no bit is dropped or added. The numeric
patterns are the spec's decision D1 (log 10). -/
def Obligations.DecodeAndEncodeAgree : Prop :=
  (∀ i : Instr, decodeWord (encode i) = .ok i) ∧
  (∀ (i : Instr) (rest : List Byte), decode (encodeBytes i ++ rest) = .ok (i, rest)) ∧
  (∀ (w : Word) (i : Instr), decodeWord w = .ok i → encode i = w)

/-- 30 R65: words of the spec's own examples, at least one a family. The numeric patterns are the spec's decision D1
(log 10). -/
def Obligations.SpecWordsDecode : Prop :=
  decodeWord 0x00E0 = .ok .cls ∧ decodeWord 0x00EE = .ok .ret ∧ decodeWord 0x2ABC = .ok (.call 0xABC) ∧
  decodeWord 0xBFFF = .ok (.jpV0 0xFFF) ∧ decodeWord 0x512F = .ok (.seReg 1 2 0xF) ∧
  decodeWord 0x71FF = .ok (.addImm 1 0xFF) ∧ decodeWord 0xC30F = .ok (.rnd 3 0x0F) ∧
  decodeWord 0xD01F = .ok (.drw 0 1 0xF) ∧ decodeWord 0x810E = .ok (.shl 1 0) ∧
  decodeWord 0xE5A1 = .ok (.sknp 5) ∧ decodeWord 0xF20A = .ok (.ldVKey 2) ∧ decodeWord 0xF265 = .ok (.load 2)

/-- 40 R80: every instruction but the jumps, call, return, the skips and FX0A goes on at PC + 2 unless it faults. -/
def Obligations.SequentialInstructionsAdvanceByTwo : Prop :=
  ∀ (i : Instr) (s t : State), sequential i = true → s.run ≠ .faulted → exec i s = .next t → t.run ≠ .faulted →
    t.pc = s.pc + 2

/-- 60 R208, R209: an instruction that faults changes the fault registers, RUN and KWAIT alone, and the code is one of
the four execute-stage faults. That KEY_RANGE is among the codes is log 11 (U5). -/
def Obligations.FaultEntryIsPrecise : Prop :=
  ∀ (i : Instr) (s t : State), s.run ≠ .faulted → exec i s = .next t → t.run = .faulted →
    ∃ c info, c ∈ [FaultCode.stackOverflow, .stackUnderflow, .memBounds, .keyRange] ∧ FaultsWith c info s t

/-- 60 R208, R218: every instruction in every state, and so every transition, answers a next state: an error is a
latched fault, never a stop. That a disabled step is a next state is log 6. -/
def Obligations.EveryTransitionAnswersNextState : Prop :=
  (∀ (i : Instr) (s : State), ∃ t, exec i s = .next t) ∧ (∀ s : State, ∃ t, step s = .next t)

/-! ### Control (spec 40) -/

/-- 40 R81: CLS clears every pixel, with one update strobe exactly if some pixel was 1. The numeric patterns are the
spec's decision D1 (log 10). The count of strobes is the model's field (log 4). -/
def Obligations.ClearScreenResult : Prop :=
  decodeWord 0x00E0 = .ok .cls ∧
  ∀ s : State, ∃ t, exec .cls s = .next t ∧
    (∀ u v, Screen.at t.fb u v = false) ∧
    ((∃ u v, Screen.at s.fb u v = true) → t.fbUpdates = s.fbUpdates + 1 ∧ t.dirty = false) ∧
    ((∀ u v, Screen.at s.fb u v = false) → t.fbUpdates = s.fbUpdates ∧ t.dirty = s.dirty) ∧
    t.pc = s.pc + 2 ∧ OnlyChanges [.screen, .dirty, .updates, .pc] s t

/-- 40 R82: RET pops the top entry into PC and erases nothing; with no entry in use it is STACK_UNDERFLOW (60 R203).
The numeric patterns are the spec's decision D1 (log 10). -/
def Obligations.ReturnResult : Prop :=
  decodeWord 0x00EE = .ok .ret ∧
  ∀ s : State,
    (0 < s.sp.val → ∃ t, exec .ret s = .next t ∧ t.sp.val = s.sp.val - 1 ∧
      s.stack[s.sp.val - 1]? = some t.pc ∧ t.stack = s.stack ∧ OnlyChanges [.pc, .stack] s t) ∧
    (s.sp.val = 0 → ∃ t, exec .ret s = .next t ∧ FaultsWith .stackUnderflow 0x00EE s t)

/-- 40 R85: CALL pushes PC + 2 and goes to NNN; with sixteen entries in use it is STACK_OVERFLOW (60 R202). The
numeric patterns are the spec's decision D1 (log 10). That the return address is pushed unmasked (0x1000 for a call at
0xFFE, U6) is log 11. -/
def Obligations.CallResult : Prop :=
  ∀ (s : State) (nnn : Addr12), decodeWord (0x2#4 ++ nnn) = .ok (.call nnn) ∧
    (s.sp.val < 16 → ∃ t, exec (.call nnn) s = .next t ∧ t.sp.val = s.sp.val + 1 ∧
      t.stack[s.sp.val]? = some (s.pc + 2) ∧ (∀ j : Nat, j ≠ s.sp.val → t.stack[j]? = s.stack[j]?) ∧
      t.pc.toNat = nnn.toNat ∧ OnlyChanges [.pc, .stack] s t) ∧
    (s.sp.val = 16 → ∃ t, exec (.call nnn) s = .next t ∧ FaultsWith .stackOverflow (0x2#4 ++ nnn) s t)

/-- 40 R82, R85: a call and the return after it come back to the instruction after the call with the stack count as
before. That the return address is pushed unmasked (0x1000 for a call at 0xFFE, U6) is log 11. -/
def Obligations.CallThenReturnComesBack : Prop :=
  ∀ (s : State) (nnn : Addr12), s.sp.val < 16 →
    ∃ t u, exec (.call nnn) s = .next t ∧ exec .ret t = .next u ∧ u.pc = s.pc + 2 ∧ u.sp = s.sp ∧
      OnlyChanges [.pc, .stack] s u

/-- 40 R83, R84: JP goes to NNN; JP V0 to NNN + V[0], not reduced to 12 bits. The numeric patterns are the spec's
decision D1 (log 10). -/
def Obligations.JumpResults : Prop :=
  ∀ (s : State) (nnn : Addr12),
    decodeWord (0x1#4 ++ nnn) = .ok (.jp nnn) ∧ decodeWord (0xB#4 ++ nnn) = .ok (.jpV0 nnn) ∧
    (∃ t, exec (.jp nnn) s = .next t ∧ t.pc.toNat = nnn.toNat ∧ OnlyChanges [.pc] s t) ∧
    (∃ t, exec (.jpV0 nnn) s = .next t ∧ t.pc.toNat = nnn.toNat + (s.getV 0).toNat ∧ OnlyChanges [.pc] s t)

/-- 40 R86, R87: SE VX, KK and SNE VX, KK skip by 4 if VX equals, differs from, KK; else 2. The numeric patterns are
the spec's decision D1 (log 10). -/
def Obligations.SkipImmediateResults : Prop :=
  ∀ (s : State) (x : Nibble) (kk : Byte),
    decodeWord (0x3#4 ++ x ++ kk) = .ok (.seImm x kk) ∧ decodeWord (0x4#4 ++ x ++ kk) = .ok (.sneImm x kk) ∧
    (∃ t, exec (.seImm x kk) s = .next t ∧ t.pc = (if s.getV x = kk then s.pc + 4 else s.pc + 2) ∧
      OnlyChanges [.pc] s t) ∧
    (∃ t, exec (.sneImm x kk) s = .next t ∧ t.pc = (if s.getV x = kk then s.pc + 2 else s.pc + 4) ∧
      OnlyChanges [.pc] s t)

/-- 40 R88, R89, 30 R67: SE VX, VY and SNE VX, VY, with every value of the ignored low nibble. The numeric patterns
are the spec's decision D1 (log 10). That the low nibble has no effect is the sentence R67 marks [derived] (D3, U2),
log 11. -/
def Obligations.SkipRegisterResults : Prop :=
  ∀ (s : State) (x y d : Nibble),
    decodeWord (0x5#4 ++ x ++ y ++ d) = .ok (.seReg x y d) ∧ decodeWord (0x9#4 ++ x ++ y ++ d) = .ok (.sneReg x y d) ∧
    (∃ t, exec (.seReg x y d) s = .next t ∧ t.pc = (if s.getV x = s.getV y then s.pc + 4 else s.pc + 2) ∧
      OnlyChanges [.pc] s t) ∧
    (∃ t, exec (.sneReg x y d) s = .next t ∧ t.pc = (if s.getV x = s.getV y then s.pc + 2 else s.pc + 4) ∧
      OnlyChanges [.pc] s t)

/-! ### Constants, index, random (spec 41) -/

/-- 41 R100, R101: LD VX, KK and ADD VX, KK mod 256, VF included as a destination and never written as a flag. The
numeric patterns are the spec's decision D1 (log 10). -/
def Obligations.ImmediateResults : Prop :=
  ∀ (s : State) (x : Nibble) (kk : Byte),
    decodeWord (0x6#4 ++ x ++ kk) = .ok (.ldImm x kk) ∧ decodeWord (0x7#4 ++ x ++ kk) = .ok (.addImm x kk) ∧
    (∃ t, exec (.ldImm x kk) s = .next t ∧ t.getV x = kk ∧ OnlyRegs [x] s t ∧ t.pc = s.pc + 2 ∧
      OnlyChanges [.regs, .pc] s t) ∧
    (∃ t, exec (.addImm x kk) s = .next t ∧ (t.getV x).toNat = ((s.getV x).toNat + kk.toNat) % 256 ∧
      OnlyRegs [x] s t ∧ t.pc = s.pc + 2 ∧ OnlyChanges [.regs, .pc] s t)

/-- 41 R102: LD I, NNN. The numeric patterns are the spec's decision D1 (log 10). -/
def Obligations.SetIndexResult : Prop :=
  ∀ (s : State) (nnn : Addr12), decodeWord (0xA#4 ++ nnn) = .ok (.ldI nnn) ∧
    ∃ t, exec (.ldI nnn) s = .next t ∧ t.i.toNat = nnn.toNat ∧ t.pc = s.pc + 2 ∧ OnlyChanges [.index, .pc] s t

/-- 41 R103: RND VX, KK is the sampled byte masked with KK, whatever that free byte is, and the next execution samples
another. The numeric patterns are the spec's decision D1 (log 10). The byte is a free value (log 3), and the statement
holds whatever it is. -/
def Obligations.RandomResult : Prop :=
  ∀ (s : State) (x : Nibble) (kk : Byte), decodeWord (0xC#4 ++ x ++ kk) = .ok (.rnd x kk) ∧
    ∃ t, exec (.rnd x kk) s = .next t ∧ t.getV x = (s.rand &&& kk) ∧ t.randCount = s.randCount + 1 ∧
      OnlyRegs [x] s t ∧ t.pc = s.pc + 2 ∧ OnlyChanges [.regs, .pc, .rand] s t

/-! ### Draw (spec 42) -/

/-- 42 R111: Draw toggles exactly the pixels a sprite bit of 1 covers, reports a collision exactly if one of them was
set, and a change exactly if there is one. -/
def Obligations.DrawTogglesCoveredPixels : Prop :=
  ∀ (fb : Screen) (x y : Byte) (sprite : List Byte),
    (∀ u v, Screen.at (Screen.draw fb x y sprite).fb u v = (Screen.at fb u v ^^ covers x y sprite u v)) ∧
    ((Screen.draw fb x y sprite).collision = true ↔
      ∃ u v, covers x y sprite u v = true ∧ Screen.at fb u v = true) ∧
    ((Screen.draw fb x y sprite).changed = true ↔ ∃ u v, covers x y sprite u v = true)

/-- 42 R110, R112: DRW with all its bytes in memory draws the N bytes from I at (VX, VY), writes the collision to VF,
and emits one update strobe exactly if a pixel changed. The numeric patterns are the spec's decision D1 (log 10). The
count of strobes is the model's field (log 4). -/
def Obligations.DrawResult : Prop :=
  ∀ (s : State) (x y n : Nibble), decodeWord (0xD#4 ++ x ++ y ++ n) = .ok (.drw x y n) ∧
    (n.toNat = 0 ∨ s.i.toNat + n.toNat ≤ 4096 →
      let sprite := (List.range n.toNat).map (fun r => Memory.read s.mem (s.i.toNat + r))
      let hit := covers (s.getV x) (s.getV y) sprite
      ∃ t, exec (.drw x y n) s = .next t ∧
        (∀ u v, Screen.at t.fb u v = (Screen.at s.fb u v ^^ hit u v)) ∧
        ((∃ u v, hit u v = true ∧ Screen.at s.fb u v = true) → t.getV 15 = 1) ∧
        ((∀ u v, hit u v = true → Screen.at s.fb u v = false) → t.getV 15 = 0) ∧
        ((∃ u v, hit u v = true) → t.fbUpdates = s.fbUpdates + 1 ∧ t.dirty = false) ∧
        ((∀ u v, hit u v = false) → t.fbUpdates = s.fbUpdates ∧ t.dirty = s.dirty) ∧
        OnlyRegs [15] s t ∧ t.pc = s.pc + 2 ∧ OnlyChanges [.regs, .pc, .screen, .dirty, .updates] s t)

/-! ### Register-register (spec 43) -/

/-- 43 R121 to R124: copy, OR, AND, XOR write V[X] and no flag. The numeric patterns are the spec's decision D1 (log
10). -/
def Obligations.CopyAndLogicResults : Prop :=
  ∀ (s : State) (x y : Nibble),
    decodeWord (0x8#4 ++ x ++ y ++ 0x0#4) = .ok (.ldReg x y) ∧ decodeWord (0x8#4 ++ x ++ y ++ 0x1#4) = .ok (.orReg x y) ∧
    decodeWord (0x8#4 ++ x ++ y ++ 0x2#4) = .ok (.andReg x y) ∧ decodeWord (0x8#4 ++ x ++ y ++ 0x3#4) = .ok (.xorReg x y) ∧
    (∃ t, exec (.ldReg x y) s = .next t ∧ t.getV x = s.getV y ∧ OnlyRegs [x] s t ∧ t.pc = s.pc + 2 ∧
      OnlyChanges [.regs, .pc] s t) ∧
    (∃ t, exec (.orReg x y) s = .next t ∧ t.getV x = (s.getV x ||| s.getV y) ∧ OnlyRegs [x] s t ∧ t.pc = s.pc + 2 ∧
      OnlyChanges [.regs, .pc] s t) ∧
    (∃ t, exec (.andReg x y) s = .next t ∧ t.getV x = (s.getV x &&& s.getV y) ∧ OnlyRegs [x] s t ∧ t.pc = s.pc + 2 ∧
      OnlyChanges [.regs, .pc] s t) ∧
    (∃ t, exec (.xorReg x y) s = .next t ∧ t.getV x = (s.getV x ^^^ s.getV y) ∧ OnlyRegs [x] s t ∧ t.pc = s.pc + 2 ∧
      OnlyChanges [.regs, .pc] s t)

/-- 43 R125, R120: ADD, with the sum of the latched operands; VF the carry unless X is 15, when the sum stays. That
with X = 15 the result stays is the spec's own reading in R120 (D9, U3), log 11. -/
def Obligations.AddResult : Prop :=
  ∀ (s : State) (x y : Nibble), decodeWord (0x8#4 ++ x ++ y ++ 0x4#4) = .ok (.addReg x y) ∧
    ∃ t, exec (.addReg x y) s = .next t ∧
      (t.getV x).toNat = ((s.getV x).toNat + (s.getV y).toNat) % 256 ∧
      (x ≠ 15 → t.getV 15 = if (s.getV x).toNat + (s.getV y).toNat > 255 then 1 else 0) ∧
      OnlyRegs [x, 15] s t ∧ t.pc = s.pc + 2 ∧ OnlyChanges [.regs, .pc] s t

/-- 43 R126, R128, R120: SUB is VX - VY, SUBN is VY - VX, mod 256; VF is 1 exactly if no borrow was needed, unless X
is 15, when the difference stays. The numeric patterns are the spec's decision D1 (log 10). That with X = 15 the
result stays is the spec's own reading in R120 (D9, U3), log 11. -/
def Obligations.SubtractResults : Prop :=
  ∀ (s : State) (x y : Nibble),
    decodeWord (0x8#4 ++ x ++ y ++ 0x5#4) = .ok (.subReg x y) ∧ decodeWord (0x8#4 ++ x ++ y ++ 0x7#4) = .ok (.subnReg x y) ∧
    (∃ t, exec (.subReg x y) s = .next t ∧
      (t.getV x).toNat = ((s.getV x).toNat + 256 - (s.getV y).toNat) % 256 ∧
      (x ≠ 15 → t.getV 15 = if (s.getV x).toNat ≥ (s.getV y).toNat then 1 else 0) ∧
      OnlyRegs [x, 15] s t ∧ t.pc = s.pc + 2 ∧ OnlyChanges [.regs, .pc] s t) ∧
    (∃ t, exec (.subnReg x y) s = .next t ∧
      (t.getV x).toNat = ((s.getV y).toNat + 256 - (s.getV x).toNat) % 256 ∧
      (x ≠ 15 → t.getV 15 = if (s.getV y).toNat ≥ (s.getV x).toNat then 1 else 0) ∧
      OnlyRegs [x, 15] s t ∧ t.pc = s.pc + 2 ∧ OnlyChanges [.regs, .pc] s t)

/-- 43 R127, R129, R120: SHR and SHL shift VX itself by one, with every value of the unused Y field; VF is the bit
moved out unless X is 15, when the shifted value stays. The numeric patterns are the spec's decision D1 (log 10). That
with X = 15 the result stays is the spec's own reading in R120 (D9, U3), log 11. -/
def Obligations.ShiftResults : Prop :=
  ∀ (s : State) (x y : Nibble),
    decodeWord (0x8#4 ++ x ++ y ++ 0x6#4) = .ok (.shr x y) ∧ decodeWord (0x8#4 ++ x ++ y ++ 0xE#4) = .ok (.shl x y) ∧
    (∃ t, exec (.shr x y) s = .next t ∧ (t.getV x).toNat = (s.getV x).toNat / 2 ∧
      (x ≠ 15 → (t.getV 15).toNat = (s.getV x).toNat % 2) ∧
      OnlyRegs [x, 15] s t ∧ t.pc = s.pc + 2 ∧ OnlyChanges [.regs, .pc] s t) ∧
    (∃ t, exec (.shl x y) s = .next t ∧ (t.getV x).toNat = (s.getV x).toNat * 2 % 256 ∧
      (x ≠ 15 → (t.getV 15).toNat = (s.getV x).toNat / 128) ∧
      OnlyRegs [x, 15] s t ∧ t.pc = s.pc + 2 ∧ OnlyChanges [.regs, .pc] s t)

/-! ### Keys and FX (spec 44, 45) -/

/-- 44 R140, R141, R142, 60 R205: SKP and SKNP on a value up to 15 skip on that key's bit; over 15 both are KEY_RANGE
with the value. KEY_RANGE for a value over 15 is the spec's decision D12 (U5), log 11. -/
def Obligations.KeySkipResults : Prop :=
  ∀ (s : State) (x : Nibble),
    decodeWord (0xE#4 ++ x ++ 0x9E#8) = .ok (.skp x) ∧ decodeWord (0xE#4 ++ x ++ 0xA1#8) = .ok (.sknp x) ∧
    (∀ k : Nibble, (s.getV x).toNat = k.toNat →
      (∃ t, exec (.skp x) s = .next t ∧ t.pc = (if s.getKey k = true then s.pc + 4 else s.pc + 2) ∧
        OnlyChanges [.pc] s t) ∧
      (∃ t, exec (.sknp x) s = .next t ∧ t.pc = (if s.getKey k = true then s.pc + 2 else s.pc + 4) ∧
        OnlyChanges [.pc] s t)) ∧
    (15 < (s.getV x).toNat →
      (∃ t, exec (.skp x) s = .next t ∧ FaultsWith .keyRange (0#8 ++ s.getV x) s t) ∧
      (∃ t, exec (.sknp x) s = .next t ∧ FaultsWith .keyRange (0#8 ++ s.getV x) s t))

/-- 45 R150, R152, R153: FX07 reads DT, FX15 writes DT, FX18 writes ST; `tone` follows ST (10 R16). -/
def Obligations.TimerInstructionResults : Prop :=
  ∀ (s : State) (x : Nibble),
    decodeWord (0xF#4 ++ x ++ 0x07#8) = .ok (.ldVDt x) ∧ decodeWord (0xF#4 ++ x ++ 0x15#8) = .ok (.ldDtV x) ∧
    decodeWord (0xF#4 ++ x ++ 0x18#8) = .ok (.ldStV x) ∧
    (∃ t, exec (.ldVDt x) s = .next t ∧ t.getV x = s.dt ∧ OnlyRegs [x] s t ∧ t.pc = s.pc + 2 ∧
      OnlyChanges [.regs, .pc] s t) ∧
    (∃ t, exec (.ldDtV x) s = .next t ∧ t.dt = s.getV x ∧ t.pc = s.pc + 2 ∧ OnlyChanges [.delay, .pc] s t) ∧
    (∃ t, exec (.ldStV x) s = .next t ∧ t.st = s.getV x ∧ (t.ports.tone = true ↔ s.getV x ≠ 0) ∧
      t.pc = s.pc + 2 ∧ OnlyChanges [.sound, .pc] s t)

/-- 45 R151: FX0A makes the request and waits with PC held; the step strobe is then ignored; the first released-to-pressed
transition puts the key's number in V[X] and runs on at PC + 2. -/
def Obligations.KeyWaitResult : Prop :=
  ∀ (s : State) (x : Nibble), decodeWord (0xF#4 ++ x ++ 0x0A#8) = .ok (.ldVKey x) ∧
    ∃ t, exec (.ldVKey x) s = .next t ∧ t.kwait = true ∧ t.kreg = x ∧ t.run = .waitKey ∧
      OnlyChanges [.keyWait, .run] s t ∧
      t.interpreterStep = .next t ∧
      ∀ k : Nibble, s.getKey k = false →
        ∃ u, t.apply (.keySet k true) = .next u ∧ (u.getV x).toNat = k.toNat ∧ OnlyRegs [x] s u ∧
          u.getKey k = true ∧ (∀ j, j ≠ k → u.getKey j = s.getKey j) ∧ u.kwait = false ∧ u.run = .running ∧
          u.pc = s.pc + 2 ∧ OnlyChanges [.regs, .keys, .keyWait, .run, .pc] s u

/-- 45 R154, R155: ADD I, VX mod 65536 with no flag; LD F, VX points I at FONT_BASE + 5 * VX, the value unmasked.
FONT_BASE is the spec's default (log 7). That FX29 does not mask a value over 15 is D11 (U4), log 11. -/
def Obligations.IndexArithmeticResults : Prop :=
  ∀ (s : State) (x : Nibble),
    decodeWord (0xF#4 ++ x ++ 0x1E#8) = .ok (.addI x) ∧ decodeWord (0xF#4 ++ x ++ 0x29#8) = .ok (.ldFont x) ∧
    (∃ t, exec (.addI x) s = .next t ∧ t.i.toNat = (s.i.toNat + (s.getV x).toNat) % 65536 ∧ t.pc = s.pc + 2 ∧
      OnlyChanges [.index, .pc] s t) ∧
    (∃ t, exec (.ldFont x) s = .next t ∧ t.i.toNat = Config.fontBase + 5 * (s.getV x).toNat ∧ t.pc = s.pc + 2 ∧
      OnlyChanges [.index, .pc] s t)

/-- 45 R156: FX33 with its three addresses in memory stores hundreds, tens and ones at I, I + 1, I + 2;
with one of them outside it is MEM_BOUNDS and nothing is written. The premise on memory is the canonical form, which
every step keeps. -/
def Obligations.BcdResult : Prop :=
  ∀ (s : State) (x : Nibble), decodeWord (0xF#4 ++ x ++ 0x33#8) = .ok (.bcd x) ∧
    (Memory.wf s.mem = true → s.i.toNat + 2 < 4096 →
      ∃ t, exec (.bcd x) s = .next t ∧
        (Memory.read t.mem s.i.toNat).toNat = (s.getV x).toNat / 100 ∧
        (Memory.read t.mem (s.i.toNat + 1)).toNat = (s.getV x).toNat / 10 % 10 ∧
        (Memory.read t.mem (s.i.toNat + 2)).toNat = (s.getV x).toNat % 10 ∧
        (∀ a, (a < s.i.toNat ∨ s.i.toNat + 2 < a) → Memory.read t.mem a = Memory.read s.mem a) ∧
        t.pc = s.pc + 2 ∧ OnlyChanges [.memory, .pc] s t) ∧
    (4096 ≤ s.i.toNat + 2 →
      ∃ t, exec (.bcd x) s = .next t ∧ FaultsWith .memBounds (BitVec.ofNat 16 (max s.i.toNat 4096)) s t)

/-- 45 R157: FX55 with its addresses in memory stores V[0] to V[X] from I upward and leaves I alone;
with one outside it is MEM_BOUNDS and nothing is written. -/
def Obligations.BlockStoreResult : Prop :=
  ∀ (s : State) (x : Nibble), decodeWord (0xF#4 ++ x ++ 0x55#8) = .ok (.store x) ∧
    (Memory.wf s.mem = true → s.i.toNat + x.toNat < 4096 →
      ∃ t, exec (.store x) s = .next t ∧
        (∀ r : Nibble, r.toNat ≤ x.toNat → Memory.read t.mem (s.i.toNat + r.toNat) = s.getV r) ∧
        (∀ a, (a < s.i.toNat ∨ s.i.toNat + x.toNat < a) → Memory.read t.mem a = Memory.read s.mem a) ∧
        t.pc = s.pc + 2 ∧ OnlyChanges [.memory, .pc] s t) ∧
    (4096 ≤ s.i.toNat + x.toNat →
      ∃ t, exec (.store x) s = .next t ∧ FaultsWith .memBounds (BitVec.ofNat 16 (max s.i.toNat 4096)) s t)

/-- 45 R158: FX65 with its addresses in memory loads V[0] to V[X] from I upward and leaves I alone;
with one outside it is MEM_BOUNDS and no register is written. -/
def Obligations.BlockLoadResult : Prop :=
  ∀ (s : State) (x : Nibble), decodeWord (0xF#4 ++ x ++ 0x65#8) = .ok (.load x) ∧
    (s.i.toNat + x.toNat < 4096 →
      ∃ t, exec (.load x) s = .next t ∧
        (∀ r : Nibble, t.getV r =
          if r.toNat ≤ x.toNat then Memory.read s.mem (s.i.toNat + r.toNat) else s.getV r) ∧
        t.pc = s.pc + 2 ∧ OnlyChanges [.regs, .pc] s t) ∧
    (4096 ≤ s.i.toNat + x.toNat →
      ∃ t, exec (.load x) s = .next t ∧ FaultsWith .memBounds (BitVec.ofNat 16 (max s.i.toNat 4096)) s t)

/-- 45 R157, R158: V[0] to V[X] stored, then any registers at all, then loaded back with the same I: the stored
registers return and the others stay. -/
def Obligations.StoreThenLoadRestoresRegisters : Prop :=
  ∀ (s : State) (x : Nibble) (regs : Vector Byte 16), Memory.wf s.mem = true → s.i.toNat + x.toNat < 4096 →
    ∃ t u, exec (.store x) s = .next t ∧ exec (.load x) ({ t with v := regs } : State) = .next u ∧
      ∀ r : Nibble, u.getV r = if r.toNat ≤ x.toNat then s.getV r else regs[r.toNat]

/-- 20 R51: a word stored by FX55 over the next instruction is the word the very next fetch reads. -/
def Obligations.StoredWordIsFetchedNext : Prop :=
  ∀ (s : State) (x : Nibble), Memory.wf s.mem = true → 1 ≤ x.toNat → s.i = s.pc + 2 → s.i.toNat + x.toNat < 4096 →
    ∃ t, exec (.store x) s = .next t ∧ t.fetch = .ok (s.getV 0 ++ s.getV 1)

/-! ### Events and host operations (spec 60, 70) -/

/-- 60 R214: each tick decrements its own timer by one, holds at zero, in every run state, and touches nothing else. -/
def Obligations.TicksCountDown : Prop :=
  ∀ s : State,
    (∃ t, s.apply .tickD = .next t ∧ t.dt.toNat = s.dt.toNat - 1 ∧ OnlyChanges [.delay] s t) ∧
    (∃ t, s.apply .tickS = .next t ∧ t.st.toNat = s.st.toNat - 1 ∧ (t.ports.tone = true ↔ 1 < s.st.toNat) ∧
      OnlyChanges [.sound] s t)

/-- 60 R215: key_set writes the key; a released-to-pressed transition with a request pending fulfils it, anything else
changes KEY alone. -/
def Obligations.KeySetResult : Prop :=
  ∀ (s : State) (k : Nibble) (p : Bool),
    ∃ t, s.apply (.keySet k p) = .next t ∧ t.getKey k = p ∧ (∀ j, j ≠ k → t.getKey j = s.getKey j) ∧
      (s.getKey k = false ∧ p = true ∧ s.kwait = true →
        (t.getV s.kreg).toNat = k.toNat ∧ OnlyRegs [s.kreg] s t ∧ t.kwait = false ∧ t.kreg = s.kreg ∧
        t.run = .running ∧ t.pc = s.pc + 2 ∧ OnlyChanges [.regs, .keys, .keyWait, .run, .pc] s t) ∧
      (¬ (s.getKey k = false ∧ p = true ∧ s.kwait = true) → OnlyChanges [.keys] s t)

/-- 60 R216, 70 R255: cancel sets the flag alone; a step that finds it stops without a fetch, a key wait is dropped
with PC at the FX0A, CANCEL stays 1, and one step after a cancel the machine that ran or waited is STOPPED. A step is
one with no event to come or one taken as the event `step`. That the internal transition comes before any other is log
14. -/
def Obligations.CancelStopsTheMachine : Prop :=
  (∀ s : State, ∃ t, s.apply .cancel = .next t ∧ t.cancel = true ∧ OnlyChanges [.cancel] s t) ∧
  (∀ s u : State, s.stepFrom u → u.run = .running → u.cancel = true →
    ∃ t, step s = .next t ∧ t.run = .stopped ∧ OnlyChanges [.run] u t) ∧
  (∀ s : State, s.run = .waitKey → s.cancel = true →
    ∃ t, step s = .next t ∧ t.run = .stopped ∧ t.kwait = false ∧ t.kreg = s.kreg ∧ OnlyChanges [.run, .keyWait] s t) ∧
  (∀ s u : State, s.setCancelFlag.stepFrom u → s.run = .running ∨ s.run = .waitKey →
    ∃ t, step s.setCancelFlag = .next t ∧ t.run = .stopped ∧ t.cancel = true)

/-- 70 R250: power_on, in any state, gives every element its power-on value, and emits no update strobe. The font and
MEM_INIT are the spec's defaults (log 7, 8); what becomes of the model's own fields is log 19. That the keys are
released is log 9 (D23, U13). -/
def Obligations.PowerOnValues : Prop :=
  ∀ s : State, ∃ t, s.apply .powerOn = .next t ∧
    (∀ r, t.getV r = 0) ∧ t.i = 0 ∧ t.pc = 0x0200 ∧ t.sp.val = 0 ∧ (∀ j : Fin 16, t.stack[j.val] = 0) ∧
    t.dt = 0 ∧ t.st = 0 ∧ t.ports.tone = false ∧
    (∀ j : Nat, j < 80 → some (Memory.read t.mem (Config.fontBase + j)) = Config.font[j]?) ∧
    (∀ a : Nat, a < 4096 → (a < Config.fontBase ∨ Config.fontBase + 80 ≤ a) → Memory.read t.mem a = Config.memInit) ∧
    (∀ u v, Screen.at t.fb u v = false) ∧ t.dirty = false ∧ (∀ k, t.getKey k = false) ∧ t.kwait = false ∧ t.kreg = 0 ∧
    t.run = .stopped ∧ t.cancel = false ∧ t.fault = .none ∧ t.faultInfo = 0 ∧ t.faultPc = 0 ∧
    t.fbUpdates = s.fbUpdates

/-- 20 R42: the eighty font bytes in memory after power-on, the spec's table at its default FONT_BASE. The place and the
bytes are the spec's default for a parameter it leaves open (log 7). -/
def Obligations.FontAfterReset : Prop :=
  Memory.readBytes State.reset.mem 0x050 80 =
    [0xF0, 0x90, 0x90, 0x90, 0xF0, 0x20, 0x60, 0x20, 0x20, 0x70, 0xF0, 0x10, 0xF0, 0x80, 0xF0, 0xF0, 0x10, 0xF0, 0x10,
     0xF0, 0x90, 0x90, 0xF0, 0x10, 0x10, 0xF0, 0x80, 0xF0, 0x10, 0xF0, 0xF0, 0x80, 0xF0, 0x90, 0xF0, 0xF0, 0x10, 0x20,
     0x40, 0x40] ++
    [0xF0, 0x90, 0xF0, 0x90, 0xF0, 0xF0, 0x90, 0xF0, 0x10, 0xF0, 0xF0, 0x90, 0xF0, 0x90, 0x90, 0xE0, 0x90, 0xE0, 0x90,
     0xE0, 0xF0, 0x80, 0x80, 0x80, 0xF0, 0xE0, 0x90, 0x90, 0x90, 0xE0, 0xF0, 0x80, 0xF0, 0x80, 0xF0, 0xF0, 0x80, 0xF0,
     0x80, 0x80]

/-- 70 R251: an accepted reset gives every element its reset value, writes the font again, keeps every other byte and
the keys, and emits one update strobe exactly if a pixel was 1. The font is the spec's default (log 7), the count of
strobes the model's field (log 4). -/
def Obligations.ResetResult : Prop :=
  ∀ s : State, Memory.wf s.mem = true → s.run = .stopped ∨ s.run = .faulted →
    ∃ t, s.apply .reset = .next t ∧
      (∀ r, t.getV r = 0) ∧ t.i = 0 ∧ t.pc = 0x0200 ∧ t.sp.val = 0 ∧ (∀ j : Fin 16, t.stack[j.val] = 0) ∧
      t.dt = 0 ∧ t.st = 0 ∧
      (∀ j : Nat, j < 80 → some (Memory.read t.mem (Config.fontBase + j)) = Config.font[j]?) ∧
      (∀ a : Nat, (a < Config.fontBase ∨ Config.fontBase + 80 ≤ a) → Memory.read t.mem a = Memory.read s.mem a) ∧
      (∀ u v, Screen.at t.fb u v = false) ∧
      ((∃ u v, Screen.at s.fb u v = true) → t.fbUpdates = s.fbUpdates + 1) ∧
      ((∀ u v, Screen.at s.fb u v = false) → t.fbUpdates = s.fbUpdates) ∧
      t.dirty = false ∧ (∀ k, t.getKey k = s.getKey k) ∧ t.kwait = false ∧ t.kreg = 0 ∧
      t.run = .stopped ∧ t.cancel = false ∧ t.fault = .none ∧ t.faultInfo = 0 ∧ t.faultPc = 0

/-- 70 R252: reset twice is reset once, whatever the run state, and the state after power_on is a fixed point of reset. -/
def Obligations.ResetIsIdempotent : Prop :=
  (∀ s : State, Memory.wf s.mem = true → s.hostReset.hostReset = s.hostReset) ∧
  (∀ s : State, s.powerOn.hostReset = s.powerOn)

/-- 70 R253, 60 R206: an accepted load writes its bytes from 0x200 upward and nothing else; one of more than 3584 bytes
writes those that fit and is the fault LOAD with the saturated count. -/
def Obligations.LoadResult : Prop :=
  ∀ (s : State) (bytes : List Byte), Memory.wf s.mem = true → s.run = .stopped →
    ∃ t, s.apply (.load bytes) = .next t ∧
      (∀ j : Nat, j < 3584 → j < bytes.length → some (Memory.read t.mem (0x200 + j)) = bytes[j]?) ∧
      (∀ a : Nat, (a < 0x200 ∨ 0x200 + bytes.length ≤ a ∨ 4096 ≤ a) → Memory.read t.mem a = Memory.read s.mem a) ∧
      (bytes.length ≤ 3584 → OnlyChanges [.memory] s t) ∧
      (3584 < bytes.length → t.fault = .load ∧ t.faultInfo.toNat = min bytes.length 0xFFFF ∧ t.faultPc = 0x0200 ∧
        t.run = .faulted ∧ t.kwait = false ∧ t.kreg = s.kreg ∧ OnlyChanges [.memory, .faults, .run, .keyWait] s t)

/-- 70 R254: an accepted run clears CANCEL and starts the run loop at the current PC. -/
def Obligations.RunResult : Prop :=
  ∀ s : State, s.run = .stopped →
    ∃ t, s.apply .run = .next t ∧ t.cancel = false ∧ t.run = .running ∧ OnlyChanges [.cancel, .run] s t

/-- 70 R263, 10 R22: a host operation in a run state that does not accept it, and a step strobe outside RUNNING, are
ignored: the event is used up and nothing else changes. See log 6 and log 13. -/
def Obligations.MisplacedHostOperationsAreIgnored : Prop :=
  ∀ (s : State) (bytes : List Byte),
    (s.run = .running ∨ s.run = .waitKey → s.apply .reset = .next s) ∧
    (s.run ≠ .stopped → s.apply (.load bytes) = .next s ∧ s.apply .run = .next s) ∧
    (s.run ≠ .running → s.apply .step = .next s)

/-- 70 R256: reset and the load of bytes that fit commute. -/
def Obligations.ResetAndLoadCommute : Prop :=
  ∀ (s : State) (bytes : List Byte), Memory.wf s.mem = true → s.run = .stopped → bytes.length ≤ 3584 →
    (s.hostReset).hostLoad bytes = (s.hostLoad bytes).hostReset

/-- 00 R4, R7, 60 R217: a step takes the first of the events to come, applied as that event; of the strobes of one
clock edge exactly the asserted ones are applied, each once, in the order key_set, tick_d, tick_s, cancel, step, and
`por` overrides them. The list of events is the model's (log 1); which strobes it orders is log 15. -/
def Obligations.EventsApplyInOrder : Prop :=
  (∀ (s : State) (e : Event) (rest : List Event), s.inputs = e :: rest → ¬ (s.run = .waitKey ∧ s.cancel = true) →
    step s = (s.setInputs rest).apply e) ∧
  (∀ (k : Nibble) (p : Bool), (Strobes.mk false (some (k, p)) true true true true).events =
    [.keySet k p, .tickD, .tickS, .cancel, .step]) ∧
  (∀ e : Strobes, e.por = true → e.events = [.powerOn]) ∧
  (∀ e : Strobes, e.por = false →
    (∀ k p, .keySet k p ∈ e.events ↔ e.keySet = some (k, p)) ∧ (.tickD ∈ e.events ↔ e.tickD = true) ∧
    (.tickS ∈ e.events ↔ e.tickS = true) ∧ (.cancel ∈ e.events ↔ e.cancel = true) ∧
    (.step ∈ e.events ↔ e.step = true) ∧
    List.Sublist e.events
      [.keySet (e.keySet.getD (0, false)).1 (e.keySet.getD (0, false)).2, .tickD, .tickS, .cancel, .step])

/-- 00 R6, 10 R16, R22, R24: what the output ports show. -/
def Obligations.PortsShowTheState : Prop :=
  ∀ s : State, (s.ports.tone = true ↔ s.st ≠ 0) ∧ s.ports.fb = s.fb ∧
    (s.run = .stopped → s.ports.runState = 0) ∧ (s.run = .running → s.ports.runState = 1) ∧
    (s.run = .waitKey → s.ports.runState = 2) ∧ (s.run = .faulted → s.ports.runState = 3) ∧
    (s.fault = .none → s.ports.faultCode = 0) ∧ (s.fault = .decode → s.ports.faultCode = 1) ∧
    (s.fault = .stackOverflow → s.ports.faultCode = 2) ∧ (s.fault = .stackUnderflow → s.ports.faultCode = 3) ∧
    (s.fault = .memBounds → s.ports.faultCode = 4) ∧ (s.fault = .keyRange → s.ports.faultCode = 5) ∧
    (s.fault = .load → s.ports.faultCode = 6) ∧ (s.fault = .config → s.ports.faultCode = 7) ∧
    s.ports.faultInfo = s.faultInfo ∧ s.ports.faultPc = s.faultPc

/-- 60 R219: the generic countdown: no decrement at zero or before `period` has elapsed; else exactly one, at `now`,
and a repeating timer that reaches zero is set to one; a period that is not positive is the error CONFIG (R207). The
answer fault is log 5, `last` is log 16. -/
def Obligations.GenericTimerTicks : Prop :=
  (∀ (t : Timer) (now : Nat), t.remaining = 0 ∨ now < t.last + t.period → t.tick now = (t, none)) ∧
  (∀ (t : Timer) (now : Nat), 0 < t.remaining → t.last + t.period ≤ now →
    (t.tick now).2 = some (t.remaining - 1) ∧ (t.tick now).1.last = now ∧ (t.tick now).1.period = t.period ∧
    (t.tick now).1.repeats = t.repeats ∧
    (t.tick now).1.remaining = if t.remaining = 1 ∧ t.repeats = true then 1 else t.remaining - 1) ∧
  (∀ (p : Int) (r : Bool) (n l : Nat), (p ≤ 0 → Timer.construct p r n l = .fault .config) ∧
    (0 < p → ∃ t, Timer.construct p r n l = .next t ∧ (t.period : Int) = p ∧ t.repeats = r ∧ t.remaining = n ∧ t.last = l))

/-! ### Rules over the whole machine -/

/-- 10 R17, R18, R19, 20 R40: no instruction but FX33 and FX55 writes memory, and none but CLS and DRW writes the
framebuffer or emits an update. -/
def Obligations.OnlyStoresWriteMemoryOnlyDrawsTheScreen : Prop :=
  ∀ (i : Instr) (s t : State), exec i s = .next t →
    ((∀ x, i ≠ .bcd x ∧ i ≠ .store x) → t.mem = s.mem) ∧
    ((i ≠ .cls ∧ ∀ x y n, i ≠ .drw x y n) → t.fb = s.fb ∧ t.fbUpdates = s.fbUpdates ∧ t.dirty = s.dirty)

/-- 10 R12, R14, R15, R16: I is written by ANNN, FX1E, FX29 alone, the stack and SP by call and return alone, DT by FX15
and ST by FX18 alone. -/
def Obligations.SpecialRegistersHaveTheirOwnWriters : Prop :=
  ∀ (i : Instr) (s t : State), exec i s = .next t →
    ((∀ nnn x, i ≠ .ldI nnn ∧ i ≠ .addI x ∧ i ≠ .ldFont x) → t.i = s.i) ∧
    ((i ≠ .ret ∧ ∀ nnn, i ≠ .call nnn) → t.stack = s.stack ∧ t.sp = s.sp) ∧
    ((∀ x, i ≠ .ldDtV x) → t.dt = s.dt) ∧ ((∀ x, i ≠ .ldStV x) → t.st = s.st)

/-- 10 R10, R11, R14: an instruction writes no general register but its destination, VF where it is a flag writer, and
V[0] to V[X] for FX65; in particular VF is left alone by all others. -/
def Obligations.RegistersChangeOnlyAsNamed : Prop :=
  ∀ (i : Instr) (s t : State) (r : Nibble), exec i s = .next t → writesReg i r = false → t.getV r = s.getV r

/-- 60 R218, 10 R20, R22, R23, R24: no instruction writes a key, CANCEL or the events to come; RUN, KWAIT and the fault
registers change only by FX0A or by a fault. -/
def Obligations.ProgramCannotReachHostState : Prop :=
  ∀ (i : Instr) (s t : State), exec i s = .next t →
    t.key = s.key ∧ t.cancel = s.cancel ∧ t.inputs = s.inputs ∧
    (t.run = s.run ∧ t.kwait = s.kwait ∧ t.kreg = s.kreg ∧ t.fault = s.fault ∧ t.faultInfo = s.faultInfo ∧
        t.faultPc = s.faultPc ∨
      (∃ x, i = .ldVKey x) ∧ t.run = .waitKey ∧ t.fault = s.fault ∧ t.faultInfo = s.faultInfo ∧ t.faultPc = s.faultPc ∨
      t.run = .faulted ∧ t.fault ≠ .none ∧ t.faultPc = s.pc ∧ t.kreg = s.kreg)

/-- 10 R16, R23, R24: no instruction reads ST, CANCEL or the fault registers: with other values there, every instruction
does the same to everything else. -/
def Obligations.ProgramCannotReadSoundTimerOrFaults : Prop :=
  ∀ (i : Instr) (s t : State) (st : Byte) (cancel : Bool) (c : FaultCode) (info p : Word), exec i s = .next t →
    ∃ u, exec i (((s.setSt st).setCancel cancel).setFault c info p) = .next u ∧
      OnlyChanges [.sound, .cancel, .faults] t u ∧ u.mem = t.mem ∧ u.v = t.v ∧ u.cancel = cancel

/-- 70 R257: a jump to its own address changes nothing at all (a step taken as the event `step` uses that event up),
so a parked program stays parked. -/
def Obligations.JumpToSelfChangesNothing : Prop :=
  ∀ (s u : State) (nnn : Addr12), s.stepFrom u → u.run = .running → u.cancel = false → u.pc.toNat = nnn.toNat →
    nnn.toNat ≤ 0xFFE → decodeWord u.fetchedWord = .ok (.jp nnn) → step s = .next u

/-! ### Invariants -/

/-- 10 R27, R252: the invariant holds at reset. -/
def Obligations.ResetMeetsTheInvariant : Prop := State.reset.Inv

/-- 20 R40: every step, from any state with canonical memory, whatever event it takes, keeps memory canonical: only
addresses of MEM, strictly rising, none at its power-on value. The canonical form is the model's. -/
def Obligations.StepKeepsMemoryCanonical : Prop :=
  ∀ s t : State, Memory.wf s.mem = true → step s = .next t → Memory.wf t.mem = true

/-- 10 R13, R14, R19, R21, R22, R24, 60 R207, R208: every step, whatever event it takes, keeps the control state
consistent, PC at most 0x10FE, return addresses at most 0x1000 and memory canonical. The bound 0x10FE is the sentence
R13 marks [derived]. That a return address is unmasked, so at most 0x1000 and not 0x0FFF, is log 11 (U6). -/
def Obligations.StepKeepsTheInvariant : Prop :=
  ∀ s t : State, s.Inv → step s = .next t → t.Inv
end

