-- ==== Sys2Proof/Laws/Decode.lean ====
section
/-! SUPPORT. The fields of a word laid together from its fields, one lemma per format and field (spec 30 R61, R62). -/

namespace Sys2Proof

theorem fieldOp_fmtA (o : Nibble) (a : Addr12) : fieldOp (o ++ a) = o := by
  apply BitVec.eq_of_getLsbD_eq; intro j hj
  rw [fieldOp, BitVec.getLsbD_extractLsb', BitVec.getLsbD_append]
  simp [hj]

theorem fieldNNN_fmtA (o : Nibble) (a : Addr12) : fieldNNN (o ++ a) = a := by
  apply BitVec.eq_of_getLsbD_eq; intro j hj
  rw [fieldNNN, BitVec.getLsbD_extractLsb', BitVec.getLsbD_append]
  simp [hj]

theorem fieldOp_fmtK (o x : Nibble) (k : Byte) : fieldOp (o ++ x ++ k) = o := by
  apply BitVec.eq_of_getLsbD_eq; intro j hj
  have h0 : ¬ 12 + j < 8 := by omega
  have h1 : ¬ 12 + j - 8 < 4 := by omega
  have h2 : 12 + j - 8 - 4 = j := by omega
  rw [fieldOp, BitVec.getLsbD_extractLsb', BitVec.getLsbD_append, BitVec.getLsbD_append]
  simp [hj, h0, h1, h2]

theorem fieldX_fmtK (o x : Nibble) (k : Byte) : fieldX (o ++ x ++ k) = x := by
  apply BitVec.eq_of_getLsbD_eq; intro j hj
  rw [fieldX, BitVec.getLsbD_extractLsb', BitVec.getLsbD_append, BitVec.getLsbD_append]
  simp [hj]

theorem fieldKK_fmtK (o x : Nibble) (k : Byte) : fieldKK (o ++ x ++ k) = k := by
  apply BitVec.eq_of_getLsbD_eq; intro j hj
  rw [fieldKK, BitVec.getLsbD_extractLsb', BitVec.getLsbD_append, BitVec.getLsbD_append]
  simp [hj]

theorem fieldOp_fmtR (o x y n : Nibble) : fieldOp (o ++ x ++ y ++ n) = o := by
  apply BitVec.eq_of_getLsbD_eq; intro j hj
  have h0 : ¬ 12 + j < 4 := by omega
  have h1 : ¬ 12 + j - 4 < 4 := by omega
  have h2 : ¬ 12 + j - 4 - 4 < 4 := by omega
  have h3 : 12 + j - 4 - 4 - 4 = j := by omega
  rw [fieldOp, BitVec.getLsbD_extractLsb', BitVec.getLsbD_append, BitVec.getLsbD_append, BitVec.getLsbD_append]
  simp [hj, h0, h1, h2, h3]

theorem fieldX_fmtR (o x y n : Nibble) : fieldX (o ++ x ++ y ++ n) = x := by
  apply BitVec.eq_of_getLsbD_eq; intro j hj
  have h0 : ¬ 8 + j < 4 := by omega
  have h1 : ¬ 8 + j - 4 < 4 := by omega
  have h2 : 8 + j - 4 - 4 = j := by omega
  rw [fieldX, BitVec.getLsbD_extractLsb', BitVec.getLsbD_append, BitVec.getLsbD_append, BitVec.getLsbD_append]
  simp [hj, h0, h1, h2]

theorem fieldY_fmtR (o x y n : Nibble) : fieldY (o ++ x ++ y ++ n) = y := by
  apply BitVec.eq_of_getLsbD_eq; intro j hj
  rw [fieldY, BitVec.getLsbD_extractLsb', BitVec.getLsbD_append, BitVec.getLsbD_append, BitVec.getLsbD_append]
  simp [hj]

theorem fieldN_fmtR (o x y n : Nibble) : fieldN (o ++ x ++ y ++ n) = n := by
  apply BitVec.eq_of_getLsbD_eq; intro j hj
  rw [fieldN, BitVec.getLsbD_extractLsb', BitVec.getLsbD_append, BitVec.getLsbD_append, BitVec.getLsbD_append]
  simp [hj]

/-- A word is its four nibbles. -/
theorem word_eq_nibbles (w : Word) : fieldOp w ++ fieldX w ++ fieldY w ++ fieldN w = w := by
  apply BitVec.eq_of_getLsbD_eq; intro j hj
  rw [BitVec.getLsbD_append, BitVec.getLsbD_append, BitVec.getLsbD_append]
  simp only [fieldOp, fieldX, fieldY, fieldN, BitVec.getLsbD_extractLsb']
  by_cases h1 : j < 4
  · simp [h1]
  · by_cases h2 : j < 8
    · have : j - 4 < 4 := by omega
      have e : 4 + (j - 4) = j := by omega
      simp [h1, this, e]
    · by_cases h3 : j < 12
      · have a1 : ¬ j - 4 < 4 := by omega
        have a2 : j - 4 - 4 < 4 := by omega
        have e : 8 + (j - 4 - 4) = j := by omega
        simp [h1, a1, a2, e]
      · have a1 : ¬ j - 4 < 4 := by omega
        have a2 : ¬ j - 4 - 4 < 4 := by omega
        have a3 : j - 4 - 4 - 4 < 4 := by omega
        have e : 12 + (j - 4 - 4 - 4) = j := by omega
        simp [h1, a1, a2, a3, e]

/-- The byte KK is the nibbles Y and N (spec 30 R61). -/
theorem fieldKK_eq (w : Word) : fieldKK w = fieldY w ++ fieldN w := by
  apply BitVec.eq_of_getLsbD_eq; intro j hj
  rw [BitVec.getLsbD_append]
  simp only [fieldKK, fieldY, fieldN, BitVec.getLsbD_extractLsb']
  by_cases h1 : j < 4
  · simp [h1, hj]
  · have : j - 4 < 4 := by omega
    have e : 4 + (j - 4) = j := by omega
    simp [h1, hj, this, e]

/-- The address NNN is the nibble X and the byte KK (spec 30 R61). -/
theorem fieldNNN_eq (w : Word) : fieldNNN w = fieldX w ++ fieldKK w := by
  apply BitVec.eq_of_getLsbD_eq; intro j hj
  rw [BitVec.getLsbD_append]
  simp only [fieldNNN, fieldX, fieldKK, BitVec.getLsbD_extractLsb']
  by_cases h1 : j < 8
  · simp [h1, hj]
  · have : j - 8 < 4 := by omega
    have e : 8 + (j - 8) = j := by omega
    simp [h1, hj, this, e]

/-- The two bytes of a word make the word again (spec 20 R44). -/
theorem wordOfBytes_split (w : Word) : wordOfBytes (highByte w) (lowByte w) = w := by
  apply BitVec.eq_of_getLsbD_eq; intro j hj
  unfold wordOfBytes
  rw [BitVec.getLsbD_append]
  simp only [highByte, lowByte, BitVec.getLsbD_extractLsb']
  by_cases h1 : j < 8
  · simp [h1]
  · have : j - 8 < 8 := by omega
    have e : 8 + (j - 8) = j := by omega
    simp [h1, this, e]

end Sys2Proof
end

