-- ==== Sys2Proof/Laws/Draw.lean ====
section
/-! SUPPORT. What the draw's operations do to a pixel (spec 42 R111). -/

namespace Sys2Proof.Machine

@[simp] theorem Screen.at_blank (x y : Nat) : Screen.at Screen.blank x y = false := by
  unfold Screen.at Screen.rowAt Screen.blank
  split <;> simp

/-- No pixel is lit outside the grid. -/
theorem Screen.at_outside (fb : Screen) (x y : Nat) (h : ¬ (x < 64 ∧ y < 32)) : Screen.at fb x y = false := by
  unfold Screen.at Screen.rowAt
  split
  · exact BitVec.getLsbD_of_ge _ _ (by omega)
  · simp

/-- A pixel after a pixel of the grid was toggled. -/
theorem Screen.at_toggle (fb : Screen) (x y a b : Nat) (hx : x < 64) (hy : y < 32) :
    Screen.at (Screen.toggle fb x y) a b = (Screen.at fb a b ^^ (decide (a = x) && decide (b = y))) := by
  unfold Screen.at Screen.rowAt Screen.toggle
  rw [dif_pos hy]
  by_cases hb : b < 32
  · simp only [dif_pos hb, Vector.getElem_set]
    by_cases e : b = y
    · subst e
      simp [BitVec.getLsbD_twoPow, hx, eq_comm]
    · simp [e, Ne.symm e]
  · have : ¬ b = y := by omega
    simp [hb, this]

/-- Two screens with the same pixels are the same. -/
theorem Screen.ext_at {f g : Screen} (h : ∀ x y, x < 64 → y < 32 → Screen.at f x y = Screen.at g x y) : f = g := by
  apply Vector.ext
  intro y hy
  apply BitVec.eq_of_getLsbD_eq
  intro x hx
  simpa [Screen.at, Screen.rowAt, hy] using h x y hx hy

/-- One sprite bit of 1: the pixel at its place, if that is on the grid, is toggled, and was set iff there is a new
collision. -/
theorem DrawState.plot_spec (d : DrawState) (px py : Nat) :
    (∀ a b, Screen.at (d.plot px py).fb a b =
      (Screen.at d.fb a b ^^ (decide (a = px) && decide (b = py) && decide (a < 64) && decide (b < 32)))) ∧
    (d.plot px py).collision = (d.collision || (decide (px < 64) && decide (py < 32) && Screen.at d.fb px py)) ∧
    (d.plot px py).changed = (d.changed || (decide (px < 64) && decide (py < 32))) := by
  unfold DrawState.plot Config.fbWidth Config.fbHeight
  split
  · rename_i h
    refine ⟨fun a b => ?_, by simp [h.1, h.2], by simp [h.1, h.2]⟩
    rw [Screen.at_toggle _ _ _ _ _ h.1 h.2]
    by_cases ha : a = px <;> by_cases hb : b = py <;> simp [ha, hb, h.1, h.2]
  · rename_i h
    refine ⟨fun a b => ?_, ?_, ?_⟩
    · have : (decide (a = px) && decide (b = py) && decide (a < 64) && decide (b < 32)) = false := by
        simp only [Bool.and_eq_false_iff, decide_eq_false_iff_not]; omega
      rw [this, Bool.xor_false]
    · by_cases h1 : px < 64 <;> simp_all
    · by_cases h1 : px < 64 <;> simp_all

/-- The columns of one sprite row: column c toggles the pixel at x0 + c if bit 7 - c of the byte is 1. -/
theorem DrawState.columns_spec (x0 py : Nat) (b : Byte) (cs : List Nat) (hn : cs.Nodup) (d : DrawState) :
    let e := cs.foldl (fun e c => e.column x0 py b c) d
    (∀ u v, Screen.at e.fb u v =
      (Screen.at d.fb u v ^^ (cs.any (fun c => b.getLsbD (7 - c) && decide (u = x0 + c)) && decide (v = py) &&
        decide (u < 64) && decide (v < 32)))) ∧
    e.collision = (d.collision || cs.any (fun c => b.getLsbD (7 - c) && decide (x0 + c < 64) && decide (py < 32) &&
      Screen.at d.fb (x0 + c) py)) ∧
    e.changed = (d.changed || cs.any (fun c => b.getLsbD (7 - c) && decide (x0 + c < 64) && decide (py < 32))) := by
  induction cs generalizing d with
  | nil => simp
  | cons c cs ih =>
    obtain ⟨hc, hn⟩ := List.nodup_cons.mp hn
    have h1 := ih hn (d.column x0 py b c)
    simp only [List.foldl_cons]
    obtain ⟨f1, f2, f3⟩ := h1
    have hcol : d.column x0 py b c = if b.getLsbD (7 - c) then d.plot (x0 + c) py else d := rfl
    by_cases hb : b.getLsbD (7 - c)
    · rw [if_pos hb] at hcol
      obtain ⟨g1, g2, g3⟩ := DrawState.plot_spec d (x0 + c) py
      rw [← hcol] at g1 g2 g3
      refine ⟨fun u v => ?_, ?_, ?_⟩
      · rw [f1, g1, List.any_cons, hb]
        by_cases hu : u = x0 + c
        · have : cs.any (fun c => b.getLsbD (7 - c) && decide (u = x0 + c)) = false := by
            rw [List.any_eq_false]
            intro e he
            have : u ≠ x0 + e := by rintro h; exact hc (by have : e = c := by omega
                                                           exact this ▸ he)
            simp [this]
          rw [this]
          simp [hu]
        · simp [hu]
      · have : ∀ e ∈ cs, Screen.at (d.column x0 py b c).fb (x0 + e) py = Screen.at d.fb (x0 + e) py := by
          intro e he
          have : e ≠ c := fun h => hc (h ▸ he)
          rw [g1]; simp [this]
        have hany : cs.any (fun e => b.getLsbD (7 - e) && decide (x0 + e < 64) && decide (py < 32) &&
            Screen.at (d.column x0 py b c).fb (x0 + e) py) =
            cs.any (fun e => b.getLsbD (7 - e) && decide (x0 + e < 64) && decide (py < 32) &&
            Screen.at d.fb (x0 + e) py) := by
          apply Bool.eq_iff_iff.mpr
          simp only [List.any_eq_true]
          constructor
          · rintro ⟨e, he, h⟩; exact ⟨e, he, by rwa [this e he] at h⟩
          · rintro ⟨e, he, h⟩; exact ⟨e, he, by rwa [this e he]⟩
        rw [f2, hany, g2, List.any_cons, hb]
        simp [Bool.or_assoc]
      · rw [f3, g3, List.any_cons, hb]
        simp [Bool.or_assoc]
    · rw [if_neg hb] at hcol
      rw [hcol] at f1 f2 f3
      rw [hcol]
      refine ⟨fun u v => ?_, ?_, ?_⟩
      · rw [f1]; simp [hb]
      · rw [f2]; simp [hb]
      · rw [f3]; simp [hb]

/-- One sprite row over columns x0 to x0 + 7: what it covers is the byte's bits, bit 7 leftmost, clipped. -/
theorem DrawState.row_spec (d : DrawState) (x0 py : Nat) (b : Byte) :
    (∀ u v, Screen.at (d.row x0 py b).fb u v =
      (Screen.at d.fb u v ^^ (decide (x0 ≤ u) && decide (u < x0 + 8) && b.getLsbD (7 - (u - x0)) && decide (v = py) &&
        decide (u < 64) && decide (v < 32)))) ∧
    ((d.row x0 py b).collision = true ↔ d.collision = true ∨
      ∃ c, c < 8 ∧ b.getLsbD (7 - c) = true ∧ x0 + c < 64 ∧ py < 32 ∧ Screen.at d.fb (x0 + c) py = true) ∧
    ((d.row x0 py b).changed = true ↔ d.changed = true ∨
      ∃ c, c < 8 ∧ b.getLsbD (7 - c) = true ∧ x0 + c < 64 ∧ py < 32) := by
  obtain ⟨h1, h2, h3⟩ := DrawState.columns_spec x0 py b [0, 1, 2, 3, 4, 5, 6, 7] (by decide) d
  have hm : ∀ c, c ∈ [0, 1, 2, 3, 4, 5, 6, 7] ↔ c < 8 := by intro c; simp; omega
  refine ⟨fun u v => ?_, ?_, ?_⟩
  · rw [DrawState.row, h1]
    congr 1
    have : ([0, 1, 2, 3, 4, 5, 6, 7].any fun c => b.getLsbD (7 - c) && decide (u = x0 + c)) =
        (decide (x0 ≤ u) && decide (u < x0 + 8) && b.getLsbD (7 - (u - x0))) := by
      apply Bool.eq_iff_iff.mpr
      simp only [List.any_eq_true, hm, Bool.and_eq_true, decide_eq_true_eq]
      constructor
      · rintro ⟨c, hc, hb, rfl⟩
        refine ⟨by omega, ?_⟩
        rwa [Nat.add_sub_cancel_left]
      · rintro ⟨⟨h, h'⟩, hb⟩
        exact ⟨u - x0, by omega, hb, by omega⟩
    rw [this]
  · rw [DrawState.row, h2]
    simp only [Bool.or_eq_true, List.any_eq_true, hm, Bool.and_eq_true, decide_eq_true_eq, and_assoc]
  · rw [DrawState.row, h3]
    simp only [Bool.or_eq_true, List.any_eq_true, hm, Bool.and_eq_true, decide_eq_true_eq, and_assoc]

end Sys2Proof.Machine
end

