-- ==== Sys2Proof/Laws/Memory.lean ====
section
/-! SUPPORT. The laws of memory: read after write, the canonical form under every operation, and equality of canonical
memories from equality of reads. -/

namespace Sys2Proof.Machine

/-- A byte read after a byte write, at any address (spec 20 R49). -/
theorem Memory.read_write (m : Memory) (hm : m.wf = true) (a : Nat) (b : Byte) (c : Nat) :
    Memory.read (Memory.write m a b) c = if c = a then b else Memory.read m c := by
  induction m with
  | nil =>
    by_cases hb : b = Memory.initial a <;> by_cases hc : c = a
    · simp [Memory.write, Memory.read, hb, hc]
    · simp [Memory.write, Memory.read, hb, hc]
    · simp [Memory.write, Memory.read, hb, hc]
    · simp [Memory.write, Memory.read, hb, hc, Ne.symm hc]
  | cons d m ih =>
    simp only [Memory.wf, Bool.and_eq_true, List.all_eq_true, decide_eq_true_eq] at hm
    obtain ⟨⟨⟨-, -⟩, hlt⟩, hwf⟩ := hm
    have fresh : ∀ e : Nat, e ≤ d.1 → Memory.read m e = Memory.initial e := by
      intro e he
      clear ih hwf
      induction m with
      | nil => rfl
      | cons f m ih =>
        have := hlt f (by simp)
        rw [Memory.read, if_neg (by omega)]
        exact ih (fun g hg => hlt g (by simp [hg]))
    have fresh' : ∀ e : Nat, e < d.1 → Memory.read (d :: m) e = Memory.initial e := by
      intro e he
      rw [Memory.read, if_neg (by omega), fresh e (by omega)]
    unfold Memory.write
    split
    · rename_i h1
      split
      · rename_i h2
        by_cases hc : c = a
        · rw [if_pos hc, hc, fresh' a h1, h2]
        · rw [if_neg hc]
      · by_cases hc : c = a
        · rw [if_pos hc, Memory.read, if_pos hc.symm]
        · rw [if_neg hc, Memory.read, if_neg (fun e => hc e.symm)]
    · split
      · rename_i h2
        split
        · rename_i h3
          by_cases hc : c = a
          · rw [if_pos hc, hc, fresh a (by omega), h3]
          · rw [if_neg hc, Memory.read, if_neg (by omega)]
        · by_cases hc : c = a
          · rw [if_pos hc, Memory.read, if_pos hc.symm]
          · rw [if_neg hc, Memory.read, if_neg (fun e => hc e.symm), Memory.read, if_neg (by omega)]
      · rename_i h1 h2
        rw [Memory.read]
        by_cases hd : d.1 = c
        · rw [if_pos hd, if_neg (by omega), Memory.read, if_pos hd]
        · rw [if_neg hd, ih hwf, Memory.read, if_neg hd]

/-- Every entry a write leaves is the new one or an old one. -/
theorem Memory.mem_write {m : Memory} {a : Nat} {b : Byte} {d : Host.Cell} (h : d ∈ Memory.write m a b) :
    d = (a, b) ∨ d ∈ m := by
  induction m with
  | nil => unfold Memory.write at h; split at h <;> simp_all
  | cons e m ih =>
    unfold Memory.write at h
    split at h
    · split at h <;> simp_all
    · split at h
      · split at h
        · simp_all
        · simp only [List.mem_cons] at h ⊢; tauto
      · rcases List.mem_cons.mp h with rfl | h
        · simp
        · rcases ih h with h | h <;> simp [h]

/-- A write inside MEM keeps the canonical form. -/
theorem Memory.wf_write (m : Memory) (a : Nat) (b : Byte) (ha : a < Config.memSize) (hm : m.wf = true) :
    (Memory.write m a b).wf = true := by
  induction m with
  | nil => unfold Memory.write; split <;> simp_all [Memory.wf]
  | cons d m ih =>
    have hm' := hm
    simp only [Memory.wf, Bool.and_eq_true, List.all_eq_true, decide_eq_true_eq] at hm
    obtain ⟨⟨⟨h1, h2⟩, hlt⟩, hwf⟩ := hm
    unfold Memory.write
    split
    · rename_i h
      split
      · exact hm'
      · rename_i hb
        have hall : ∀ e ∈ d :: m, a < e.1 := by
          intro e he
          rcases List.mem_cons.mp he with rfl | he
          · exact h
          · have := hlt e he; omega
        rw [Memory.wf]
        simp only [Bool.and_eq_true, List.all_eq_true, decide_eq_true_eq]
        exact ⟨⟨⟨ha, by simpa using hb⟩, hall⟩, hm'⟩
    · split
      · rename_i h
        split
        · exact hwf
        · rename_i hb
          simp only [Memory.wf, Bool.and_eq_true, List.all_eq_true, decide_eq_true_eq]
          exact ⟨⟨⟨ha, by simpa using hb⟩, fun e he => h ▸ hlt e he⟩, hwf⟩
      · rename_i h3 h4
        simp only [Memory.wf, Bool.and_eq_true, List.all_eq_true, decide_eq_true_eq]
        refine ⟨⟨⟨h1, h2⟩, fun e he => ?_⟩, ih hwf⟩
        rcases Memory.mem_write he with rfl | he
        · simp only; omega
        · exact hlt e he

/-- A run of writes inside MEM keeps the canonical form. -/
theorem Memory.wf_writeBytes (m : Memory) (a : Nat) (l : List Byte) (ha : a + l.length ≤ Config.memSize)
    (hm : m.wf = true) : (Memory.writeBytes m a l).wf = true := by
  induction l generalizing m a with
  | nil => exact hm
  | cons b bs ih =>
    simp only [List.length_cons] at ha
    exact ih _ _ (by omega) (Memory.wf_write m a b (by omega) hm)

/-- A byte read after a run of writes: byte c - a of the run inside it, the old byte outside (spec 20 R45). -/
theorem Memory.read_writeBytes (m : Memory) (a : Nat) (l : List Byte) (ha : a + l.length ≤ Config.memSize)
    (hm : m.wf = true) (c : Nat) :
    Memory.read (Memory.writeBytes m a l) c =
      if a ≤ c ∧ c < a + l.length then l.getD (c - a) 0 else Memory.read m c := by
  induction l generalizing m a with
  | nil => rw [Memory.writeBytes, if_neg (by simp)]
  | cons b bs ih =>
    simp only [List.length_cons] at ha ⊢
    rw [Memory.writeBytes, ih _ _ (by omega) (Memory.wf_write m a b (by omega) hm), Memory.read_write m hm]
    by_cases hc : c = a
    · subst hc; simp
    · by_cases h : a + 1 ≤ c ∧ c < a + 1 + bs.length
      · have : c - a = (c - (a + 1)) + 1 := by omega
        rw [if_pos h, if_pos (by omega), this, List.getD_cons_succ]
      · rw [if_neg h, if_neg hc, if_neg (by omega)]

@[simp] theorem Memory.readBytes_length (m : Memory) (a n : Nat) : (Memory.readBytes m a n).length = n := by
  induction n generalizing a with
  | zero => rfl
  | succ n ih => simp [Memory.readBytes, ih]

/-- Byte j of a run of reads is the byte at address a + j (spec 20 R45). -/
theorem Memory.getD_readBytes (m : Memory) (a n j : Nat) (d : Byte) (h : j < n) :
    (Memory.readBytes m a n).getD j d = Memory.read m (a + j) := by
  induction n generalizing a j with
  | zero => omega
  | succ n ih =>
    cases j with
    | zero => simp [Memory.readBytes]
    | succ j => rw [Memory.readBytes, List.getD_cons_succ, ih _ _ (by omega), Nat.add_right_comm, Nat.add_assoc]

/-- Below its first address a canonical memory reads as at power-on. -/
theorem Memory.read_of_lt {m : Memory} {a : Nat} (h : ∀ d ∈ m, a < d.1) : Memory.read m a = Memory.initial a := by
  induction m with
  | nil => rfl
  | cons d m ih =>
    have := h d (by simp)
    rw [Memory.read, if_neg (by omega)]
    exact ih fun e he => h e (by simp [he])

/-- Two canonical memories that read the same everywhere are the same list. -/
theorem Memory.ext_read {m n : Memory} (hm : m.wf = true) (hn : n.wf = true)
    (h : ∀ a, Memory.read m a = Memory.read n a) : m = n := by
  induction m generalizing n with
  | nil =>
    cases n with
    | nil => rfl
    | cons e n =>
      simp only [Memory.wf, Bool.and_eq_true, bne_iff_ne, ne_eq] at hn
      exact absurd (by simpa [Memory.read] using (h e.1).symm) hn.1.1.2
  | cons d m ih =>
    have hm0 := hm
    simp only [Memory.wf, Bool.and_eq_true, bne_iff_ne, ne_eq, List.all_eq_true, decide_eq_true_eq] at hm
    obtain ⟨⟨⟨-, hd⟩, hdm⟩, hmw⟩ := hm
    cases n with
    | nil => exact absurd (by simpa [Memory.read] using h d.1) hd
    | cons e n =>
      simp only [Memory.wf, Bool.and_eq_true, bne_iff_ne, ne_eq, List.all_eq_true, decide_eq_true_eq] at hn
      obtain ⟨⟨⟨-, he⟩, hen⟩, hnw⟩ := hn
      have key : d.1 = e.1 := by
        rcases Nat.lt_trichotomy d.1 e.1 with hlt | heq | hgt
        · exfalso
          have h1 := h d.1
          rw [Memory.read, if_pos rfl, Memory.read_of_lt (m := e :: n)] at h1
          · exact hd h1
          · intro f hf
            rcases List.mem_cons.mp hf with rfl | hf
            · exact hlt
            · have := hen f hf; omega
        · exact heq
        · exfalso
          have h1 := (h e.1).symm
          rw [Memory.read, if_pos rfl, Memory.read_of_lt (m := d :: m)] at h1
          · exact he h1
          · intro f hf
            rcases List.mem_cons.mp hf with rfl | hf
            · exact hgt
            · have := hdm f hf; omega
      have hval : d.2 = e.2 := by simpa [Memory.read, key] using h d.1
      have htail : m = n := by
        refine ih hmw hnw fun a => ?_
        by_cases ha : a ≤ d.1
        · rw [Memory.read_of_lt fun f hf => Nat.lt_of_le_of_lt ha (hdm f hf),
            Memory.read_of_lt fun f hf => Nat.lt_of_le_of_lt (key ▸ ha) (hen f hf)]
        · have h1 := h a
          rwa [Memory.read, if_neg (by omega), Memory.read, if_neg (by omega)] at h1
      rw [htail, Prod.ext key hval]

end Sys2Proof.Machine
end

