-- ==== Sys2Proof/Laws/State.lean ====
section
/-! SUPPORT. One lemma per field per update of the state, true by unfolding, so that no proof unfolds a record update
again. -/

namespace Sys2Proof.Machine

@[simp] theorem State.setV_v (s : State) (x : Nibble) (b : Byte) : (s.setV x b).v = s.v.set x.toNat b := rfl
@[simp] theorem State.setV_i (s : State) (x : Nibble) (b : Byte) : (s.setV x b).i = s.i := rfl
@[simp] theorem State.setV_pc (s : State) (x : Nibble) (b : Byte) : (s.setV x b).pc = s.pc := rfl
@[simp] theorem State.setV_stack (s : State) (x : Nibble) (b : Byte) : (s.setV x b).stack = s.stack := rfl
@[simp] theorem State.setV_sp (s : State) (x : Nibble) (b : Byte) : (s.setV x b).sp = s.sp := rfl
@[simp] theorem State.setV_dt (s : State) (x : Nibble) (b : Byte) : (s.setV x b).dt = s.dt := rfl
@[simp] theorem State.setV_st (s : State) (x : Nibble) (b : Byte) : (s.setV x b).st = s.st := rfl
@[simp] theorem State.setV_mem (s : State) (x : Nibble) (b : Byte) : (s.setV x b).mem = s.mem := rfl
@[simp] theorem State.setV_fb (s : State) (x : Nibble) (b : Byte) : (s.setV x b).fb = s.fb := rfl
@[simp] theorem State.setV_dirty (s : State) (x : Nibble) (b : Byte) : (s.setV x b).dirty = s.dirty := rfl
@[simp] theorem State.setV_key (s : State) (x : Nibble) (b : Byte) : (s.setV x b).key = s.key := rfl
@[simp] theorem State.setV_kwait (s : State) (x : Nibble) (b : Byte) : (s.setV x b).kwait = s.kwait := rfl
@[simp] theorem State.setV_kreg (s : State) (x : Nibble) (b : Byte) : (s.setV x b).kreg = s.kreg := rfl
@[simp] theorem State.setV_run (s : State) (x : Nibble) (b : Byte) : (s.setV x b).run = s.run := rfl
@[simp] theorem State.setV_cancel (s : State) (x : Nibble) (b : Byte) : (s.setV x b).cancel = s.cancel := rfl
@[simp] theorem State.setV_fault (s : State) (x : Nibble) (b : Byte) : (s.setV x b).fault = s.fault := rfl
@[simp] theorem State.setV_faultInfo (s : State) (x : Nibble) (b : Byte) : (s.setV x b).faultInfo = s.faultInfo := rfl
@[simp] theorem State.setV_faultPc (s : State) (x : Nibble) (b : Byte) : (s.setV x b).faultPc = s.faultPc := rfl
@[simp] theorem State.setV_randCount (s : State) (x : Nibble) (b : Byte) : (s.setV x b).randCount = s.randCount := rfl
@[simp] theorem State.setV_fbUpdates (s : State) (x : Nibble) (b : Byte) : (s.setV x b).fbUpdates = s.fbUpdates := rfl
@[simp] theorem State.setV_inputs (s : State) (x : Nibble) (b : Byte) : (s.setV x b).inputs = s.inputs := rfl

@[simp] theorem State.setI_v (s : State) (w : Word) : (s.setI w).v = s.v := rfl
@[simp] theorem State.setI_i (s : State) (w : Word) : (s.setI w).i = w := rfl
@[simp] theorem State.setI_pc (s : State) (w : Word) : (s.setI w).pc = s.pc := rfl
@[simp] theorem State.setI_stack (s : State) (w : Word) : (s.setI w).stack = s.stack := rfl
@[simp] theorem State.setI_sp (s : State) (w : Word) : (s.setI w).sp = s.sp := rfl
@[simp] theorem State.setI_dt (s : State) (w : Word) : (s.setI w).dt = s.dt := rfl
@[simp] theorem State.setI_st (s : State) (w : Word) : (s.setI w).st = s.st := rfl
@[simp] theorem State.setI_mem (s : State) (w : Word) : (s.setI w).mem = s.mem := rfl
@[simp] theorem State.setI_fb (s : State) (w : Word) : (s.setI w).fb = s.fb := rfl
@[simp] theorem State.setI_dirty (s : State) (w : Word) : (s.setI w).dirty = s.dirty := rfl
@[simp] theorem State.setI_key (s : State) (w : Word) : (s.setI w).key = s.key := rfl
@[simp] theorem State.setI_kwait (s : State) (w : Word) : (s.setI w).kwait = s.kwait := rfl
@[simp] theorem State.setI_kreg (s : State) (w : Word) : (s.setI w).kreg = s.kreg := rfl
@[simp] theorem State.setI_run (s : State) (w : Word) : (s.setI w).run = s.run := rfl
@[simp] theorem State.setI_cancel (s : State) (w : Word) : (s.setI w).cancel = s.cancel := rfl
@[simp] theorem State.setI_fault (s : State) (w : Word) : (s.setI w).fault = s.fault := rfl
@[simp] theorem State.setI_faultInfo (s : State) (w : Word) : (s.setI w).faultInfo = s.faultInfo := rfl
@[simp] theorem State.setI_faultPc (s : State) (w : Word) : (s.setI w).faultPc = s.faultPc := rfl
@[simp] theorem State.setI_randCount (s : State) (w : Word) : (s.setI w).randCount = s.randCount := rfl
@[simp] theorem State.setI_fbUpdates (s : State) (w : Word) : (s.setI w).fbUpdates = s.fbUpdates := rfl
@[simp] theorem State.setI_inputs (s : State) (w : Word) : (s.setI w).inputs = s.inputs := rfl

@[simp] theorem State.setPc_v (s : State) (w : Word) : (s.setPc w).v = s.v := rfl
@[simp] theorem State.setPc_i (s : State) (w : Word) : (s.setPc w).i = s.i := rfl
@[simp] theorem State.setPc_pc (s : State) (w : Word) : (s.setPc w).pc = w := rfl
@[simp] theorem State.setPc_stack (s : State) (w : Word) : (s.setPc w).stack = s.stack := rfl
@[simp] theorem State.setPc_sp (s : State) (w : Word) : (s.setPc w).sp = s.sp := rfl
@[simp] theorem State.setPc_dt (s : State) (w : Word) : (s.setPc w).dt = s.dt := rfl
@[simp] theorem State.setPc_st (s : State) (w : Word) : (s.setPc w).st = s.st := rfl
@[simp] theorem State.setPc_mem (s : State) (w : Word) : (s.setPc w).mem = s.mem := rfl
@[simp] theorem State.setPc_fb (s : State) (w : Word) : (s.setPc w).fb = s.fb := rfl
@[simp] theorem State.setPc_dirty (s : State) (w : Word) : (s.setPc w).dirty = s.dirty := rfl
@[simp] theorem State.setPc_key (s : State) (w : Word) : (s.setPc w).key = s.key := rfl
@[simp] theorem State.setPc_kwait (s : State) (w : Word) : (s.setPc w).kwait = s.kwait := rfl
@[simp] theorem State.setPc_kreg (s : State) (w : Word) : (s.setPc w).kreg = s.kreg := rfl
@[simp] theorem State.setPc_run (s : State) (w : Word) : (s.setPc w).run = s.run := rfl
@[simp] theorem State.setPc_cancel (s : State) (w : Word) : (s.setPc w).cancel = s.cancel := rfl
@[simp] theorem State.setPc_fault (s : State) (w : Word) : (s.setPc w).fault = s.fault := rfl
@[simp] theorem State.setPc_faultInfo (s : State) (w : Word) : (s.setPc w).faultInfo = s.faultInfo := rfl
@[simp] theorem State.setPc_faultPc (s : State) (w : Word) : (s.setPc w).faultPc = s.faultPc := rfl
@[simp] theorem State.setPc_randCount (s : State) (w : Word) : (s.setPc w).randCount = s.randCount := rfl
@[simp] theorem State.setPc_fbUpdates (s : State) (w : Word) : (s.setPc w).fbUpdates = s.fbUpdates := rfl
@[simp] theorem State.setPc_inputs (s : State) (w : Word) : (s.setPc w).inputs = s.inputs := rfl

@[simp] theorem State.advance_v (s : State) : (s.advance).v = s.v := rfl
@[simp] theorem State.advance_i (s : State) : (s.advance).i = s.i := rfl
@[simp] theorem State.advance_pc (s : State) : (s.advance).pc = s.pc + 2 := rfl
@[simp] theorem State.advance_stack (s : State) : (s.advance).stack = s.stack := rfl
@[simp] theorem State.advance_sp (s : State) : (s.advance).sp = s.sp := rfl
@[simp] theorem State.advance_dt (s : State) : (s.advance).dt = s.dt := rfl
@[simp] theorem State.advance_st (s : State) : (s.advance).st = s.st := rfl
@[simp] theorem State.advance_mem (s : State) : (s.advance).mem = s.mem := rfl
@[simp] theorem State.advance_fb (s : State) : (s.advance).fb = s.fb := rfl
@[simp] theorem State.advance_dirty (s : State) : (s.advance).dirty = s.dirty := rfl
@[simp] theorem State.advance_key (s : State) : (s.advance).key = s.key := rfl
@[simp] theorem State.advance_kwait (s : State) : (s.advance).kwait = s.kwait := rfl
@[simp] theorem State.advance_kreg (s : State) : (s.advance).kreg = s.kreg := rfl
@[simp] theorem State.advance_run (s : State) : (s.advance).run = s.run := rfl
@[simp] theorem State.advance_cancel (s : State) : (s.advance).cancel = s.cancel := rfl
@[simp] theorem State.advance_fault (s : State) : (s.advance).fault = s.fault := rfl
@[simp] theorem State.advance_faultInfo (s : State) : (s.advance).faultInfo = s.faultInfo := rfl
@[simp] theorem State.advance_faultPc (s : State) : (s.advance).faultPc = s.faultPc := rfl
@[simp] theorem State.advance_randCount (s : State) : (s.advance).randCount = s.randCount := rfl
@[simp] theorem State.advance_fbUpdates (s : State) : (s.advance).fbUpdates = s.fbUpdates := rfl
@[simp] theorem State.advance_inputs (s : State) : (s.advance).inputs = s.inputs := rfl

@[simp] theorem State.skipIf_v (s : State) (c : Bool) : (s.skipIf c).v = s.v := rfl
@[simp] theorem State.skipIf_i (s : State) (c : Bool) : (s.skipIf c).i = s.i := rfl
@[simp] theorem State.skipIf_pc (s : State) (c : Bool) : (s.skipIf c).pc = if c then s.pc + 4 else s.pc + 2 := rfl
@[simp] theorem State.skipIf_stack (s : State) (c : Bool) : (s.skipIf c).stack = s.stack := rfl
@[simp] theorem State.skipIf_sp (s : State) (c : Bool) : (s.skipIf c).sp = s.sp := rfl
@[simp] theorem State.skipIf_dt (s : State) (c : Bool) : (s.skipIf c).dt = s.dt := rfl
@[simp] theorem State.skipIf_st (s : State) (c : Bool) : (s.skipIf c).st = s.st := rfl
@[simp] theorem State.skipIf_mem (s : State) (c : Bool) : (s.skipIf c).mem = s.mem := rfl
@[simp] theorem State.skipIf_fb (s : State) (c : Bool) : (s.skipIf c).fb = s.fb := rfl
@[simp] theorem State.skipIf_dirty (s : State) (c : Bool) : (s.skipIf c).dirty = s.dirty := rfl
@[simp] theorem State.skipIf_key (s : State) (c : Bool) : (s.skipIf c).key = s.key := rfl
@[simp] theorem State.skipIf_kwait (s : State) (c : Bool) : (s.skipIf c).kwait = s.kwait := rfl
@[simp] theorem State.skipIf_kreg (s : State) (c : Bool) : (s.skipIf c).kreg = s.kreg := rfl
@[simp] theorem State.skipIf_run (s : State) (c : Bool) : (s.skipIf c).run = s.run := rfl
@[simp] theorem State.skipIf_cancel (s : State) (c : Bool) : (s.skipIf c).cancel = s.cancel := rfl
@[simp] theorem State.skipIf_fault (s : State) (c : Bool) : (s.skipIf c).fault = s.fault := rfl
@[simp] theorem State.skipIf_faultInfo (s : State) (c : Bool) : (s.skipIf c).faultInfo = s.faultInfo := rfl
@[simp] theorem State.skipIf_faultPc (s : State) (c : Bool) : (s.skipIf c).faultPc = s.faultPc := rfl
@[simp] theorem State.skipIf_randCount (s : State) (c : Bool) : (s.skipIf c).randCount = s.randCount := rfl
@[simp] theorem State.skipIf_fbUpdates (s : State) (c : Bool) : (s.skipIf c).fbUpdates = s.fbUpdates := rfl
@[simp] theorem State.skipIf_inputs (s : State) (c : Bool) : (s.skipIf c).inputs = s.inputs := rfl

@[simp] theorem State.setDt_v (s : State) (b : Byte) : (s.setDt b).v = s.v := rfl
@[simp] theorem State.setDt_i (s : State) (b : Byte) : (s.setDt b).i = s.i := rfl
@[simp] theorem State.setDt_pc (s : State) (b : Byte) : (s.setDt b).pc = s.pc := rfl
@[simp] theorem State.setDt_stack (s : State) (b : Byte) : (s.setDt b).stack = s.stack := rfl
@[simp] theorem State.setDt_sp (s : State) (b : Byte) : (s.setDt b).sp = s.sp := rfl
@[simp] theorem State.setDt_dt (s : State) (b : Byte) : (s.setDt b).dt = b := rfl
@[simp] theorem State.setDt_st (s : State) (b : Byte) : (s.setDt b).st = s.st := rfl
@[simp] theorem State.setDt_mem (s : State) (b : Byte) : (s.setDt b).mem = s.mem := rfl
@[simp] theorem State.setDt_fb (s : State) (b : Byte) : (s.setDt b).fb = s.fb := rfl
@[simp] theorem State.setDt_dirty (s : State) (b : Byte) : (s.setDt b).dirty = s.dirty := rfl
@[simp] theorem State.setDt_key (s : State) (b : Byte) : (s.setDt b).key = s.key := rfl
@[simp] theorem State.setDt_kwait (s : State) (b : Byte) : (s.setDt b).kwait = s.kwait := rfl
@[simp] theorem State.setDt_kreg (s : State) (b : Byte) : (s.setDt b).kreg = s.kreg := rfl
@[simp] theorem State.setDt_run (s : State) (b : Byte) : (s.setDt b).run = s.run := rfl
@[simp] theorem State.setDt_cancel (s : State) (b : Byte) : (s.setDt b).cancel = s.cancel := rfl
@[simp] theorem State.setDt_fault (s : State) (b : Byte) : (s.setDt b).fault = s.fault := rfl
@[simp] theorem State.setDt_faultInfo (s : State) (b : Byte) : (s.setDt b).faultInfo = s.faultInfo := rfl
@[simp] theorem State.setDt_faultPc (s : State) (b : Byte) : (s.setDt b).faultPc = s.faultPc := rfl
@[simp] theorem State.setDt_randCount (s : State) (b : Byte) : (s.setDt b).randCount = s.randCount := rfl
@[simp] theorem State.setDt_fbUpdates (s : State) (b : Byte) : (s.setDt b).fbUpdates = s.fbUpdates := rfl
@[simp] theorem State.setDt_inputs (s : State) (b : Byte) : (s.setDt b).inputs = s.inputs := rfl

@[simp] theorem State.setSt_v (s : State) (b : Byte) : (s.setSt b).v = s.v := rfl
@[simp] theorem State.setSt_i (s : State) (b : Byte) : (s.setSt b).i = s.i := rfl
@[simp] theorem State.setSt_pc (s : State) (b : Byte) : (s.setSt b).pc = s.pc := rfl
@[simp] theorem State.setSt_stack (s : State) (b : Byte) : (s.setSt b).stack = s.stack := rfl
@[simp] theorem State.setSt_sp (s : State) (b : Byte) : (s.setSt b).sp = s.sp := rfl
@[simp] theorem State.setSt_dt (s : State) (b : Byte) : (s.setSt b).dt = s.dt := rfl
@[simp] theorem State.setSt_st (s : State) (b : Byte) : (s.setSt b).st = b := rfl
@[simp] theorem State.setSt_mem (s : State) (b : Byte) : (s.setSt b).mem = s.mem := rfl
@[simp] theorem State.setSt_fb (s : State) (b : Byte) : (s.setSt b).fb = s.fb := rfl
@[simp] theorem State.setSt_dirty (s : State) (b : Byte) : (s.setSt b).dirty = s.dirty := rfl
@[simp] theorem State.setSt_key (s : State) (b : Byte) : (s.setSt b).key = s.key := rfl
@[simp] theorem State.setSt_kwait (s : State) (b : Byte) : (s.setSt b).kwait = s.kwait := rfl
@[simp] theorem State.setSt_kreg (s : State) (b : Byte) : (s.setSt b).kreg = s.kreg := rfl
@[simp] theorem State.setSt_run (s : State) (b : Byte) : (s.setSt b).run = s.run := rfl
@[simp] theorem State.setSt_cancel (s : State) (b : Byte) : (s.setSt b).cancel = s.cancel := rfl
@[simp] theorem State.setSt_fault (s : State) (b : Byte) : (s.setSt b).fault = s.fault := rfl
@[simp] theorem State.setSt_faultInfo (s : State) (b : Byte) : (s.setSt b).faultInfo = s.faultInfo := rfl
@[simp] theorem State.setSt_faultPc (s : State) (b : Byte) : (s.setSt b).faultPc = s.faultPc := rfl
@[simp] theorem State.setSt_randCount (s : State) (b : Byte) : (s.setSt b).randCount = s.randCount := rfl
@[simp] theorem State.setSt_fbUpdates (s : State) (b : Byte) : (s.setSt b).fbUpdates = s.fbUpdates := rfl
@[simp] theorem State.setSt_inputs (s : State) (b : Byte) : (s.setSt b).inputs = s.inputs := rfl

@[simp] theorem State.setMem_v (s : State) (m : Memory) : (s.setMem m).v = s.v := rfl
@[simp] theorem State.setMem_i (s : State) (m : Memory) : (s.setMem m).i = s.i := rfl
@[simp] theorem State.setMem_pc (s : State) (m : Memory) : (s.setMem m).pc = s.pc := rfl
@[simp] theorem State.setMem_stack (s : State) (m : Memory) : (s.setMem m).stack = s.stack := rfl
@[simp] theorem State.setMem_sp (s : State) (m : Memory) : (s.setMem m).sp = s.sp := rfl
@[simp] theorem State.setMem_dt (s : State) (m : Memory) : (s.setMem m).dt = s.dt := rfl
@[simp] theorem State.setMem_st (s : State) (m : Memory) : (s.setMem m).st = s.st := rfl
@[simp] theorem State.setMem_mem (s : State) (m : Memory) : (s.setMem m).mem = m := rfl
@[simp] theorem State.setMem_fb (s : State) (m : Memory) : (s.setMem m).fb = s.fb := rfl
@[simp] theorem State.setMem_dirty (s : State) (m : Memory) : (s.setMem m).dirty = s.dirty := rfl
@[simp] theorem State.setMem_key (s : State) (m : Memory) : (s.setMem m).key = s.key := rfl
@[simp] theorem State.setMem_kwait (s : State) (m : Memory) : (s.setMem m).kwait = s.kwait := rfl
@[simp] theorem State.setMem_kreg (s : State) (m : Memory) : (s.setMem m).kreg = s.kreg := rfl
@[simp] theorem State.setMem_run (s : State) (m : Memory) : (s.setMem m).run = s.run := rfl
@[simp] theorem State.setMem_cancel (s : State) (m : Memory) : (s.setMem m).cancel = s.cancel := rfl
@[simp] theorem State.setMem_fault (s : State) (m : Memory) : (s.setMem m).fault = s.fault := rfl
@[simp] theorem State.setMem_faultInfo (s : State) (m : Memory) : (s.setMem m).faultInfo = s.faultInfo := rfl
@[simp] theorem State.setMem_faultPc (s : State) (m : Memory) : (s.setMem m).faultPc = s.faultPc := rfl
@[simp] theorem State.setMem_randCount (s : State) (m : Memory) : (s.setMem m).randCount = s.randCount := rfl
@[simp] theorem State.setMem_fbUpdates (s : State) (m : Memory) : (s.setMem m).fbUpdates = s.fbUpdates := rfl
@[simp] theorem State.setMem_inputs (s : State) (m : Memory) : (s.setMem m).inputs = s.inputs := rfl

@[simp] theorem State.setFb_v (s : State) (f : Screen) : (s.setFb f).v = s.v := rfl
@[simp] theorem State.setFb_i (s : State) (f : Screen) : (s.setFb f).i = s.i := rfl
@[simp] theorem State.setFb_pc (s : State) (f : Screen) : (s.setFb f).pc = s.pc := rfl
@[simp] theorem State.setFb_stack (s : State) (f : Screen) : (s.setFb f).stack = s.stack := rfl
@[simp] theorem State.setFb_sp (s : State) (f : Screen) : (s.setFb f).sp = s.sp := rfl
@[simp] theorem State.setFb_dt (s : State) (f : Screen) : (s.setFb f).dt = s.dt := rfl
@[simp] theorem State.setFb_st (s : State) (f : Screen) : (s.setFb f).st = s.st := rfl
@[simp] theorem State.setFb_mem (s : State) (f : Screen) : (s.setFb f).mem = s.mem := rfl
@[simp] theorem State.setFb_fb (s : State) (f : Screen) : (s.setFb f).fb = f := rfl
@[simp] theorem State.setFb_dirty (s : State) (f : Screen) : (s.setFb f).dirty = s.dirty := rfl
@[simp] theorem State.setFb_key (s : State) (f : Screen) : (s.setFb f).key = s.key := rfl
@[simp] theorem State.setFb_kwait (s : State) (f : Screen) : (s.setFb f).kwait = s.kwait := rfl
@[simp] theorem State.setFb_kreg (s : State) (f : Screen) : (s.setFb f).kreg = s.kreg := rfl
@[simp] theorem State.setFb_run (s : State) (f : Screen) : (s.setFb f).run = s.run := rfl
@[simp] theorem State.setFb_cancel (s : State) (f : Screen) : (s.setFb f).cancel = s.cancel := rfl
@[simp] theorem State.setFb_fault (s : State) (f : Screen) : (s.setFb f).fault = s.fault := rfl
@[simp] theorem State.setFb_faultInfo (s : State) (f : Screen) : (s.setFb f).faultInfo = s.faultInfo := rfl
@[simp] theorem State.setFb_faultPc (s : State) (f : Screen) : (s.setFb f).faultPc = s.faultPc := rfl
@[simp] theorem State.setFb_randCount (s : State) (f : Screen) : (s.setFb f).randCount = s.randCount := rfl
@[simp] theorem State.setFb_fbUpdates (s : State) (f : Screen) : (s.setFb f).fbUpdates = s.fbUpdates := rfl
@[simp] theorem State.setFb_inputs (s : State) (f : Screen) : (s.setFb f).inputs = s.inputs := rfl

@[simp] theorem State.setDirty_v (s : State) (b : Bool) : (s.setDirty b).v = s.v := rfl
@[simp] theorem State.setDirty_i (s : State) (b : Bool) : (s.setDirty b).i = s.i := rfl
@[simp] theorem State.setDirty_pc (s : State) (b : Bool) : (s.setDirty b).pc = s.pc := rfl
@[simp] theorem State.setDirty_stack (s : State) (b : Bool) : (s.setDirty b).stack = s.stack := rfl
@[simp] theorem State.setDirty_sp (s : State) (b : Bool) : (s.setDirty b).sp = s.sp := rfl
@[simp] theorem State.setDirty_dt (s : State) (b : Bool) : (s.setDirty b).dt = s.dt := rfl
@[simp] theorem State.setDirty_st (s : State) (b : Bool) : (s.setDirty b).st = s.st := rfl
@[simp] theorem State.setDirty_mem (s : State) (b : Bool) : (s.setDirty b).mem = s.mem := rfl
@[simp] theorem State.setDirty_fb (s : State) (b : Bool) : (s.setDirty b).fb = s.fb := rfl
@[simp] theorem State.setDirty_dirty (s : State) (b : Bool) : (s.setDirty b).dirty = b := rfl
@[simp] theorem State.setDirty_key (s : State) (b : Bool) : (s.setDirty b).key = s.key := rfl
@[simp] theorem State.setDirty_kwait (s : State) (b : Bool) : (s.setDirty b).kwait = s.kwait := rfl
@[simp] theorem State.setDirty_kreg (s : State) (b : Bool) : (s.setDirty b).kreg = s.kreg := rfl
@[simp] theorem State.setDirty_run (s : State) (b : Bool) : (s.setDirty b).run = s.run := rfl
@[simp] theorem State.setDirty_cancel (s : State) (b : Bool) : (s.setDirty b).cancel = s.cancel := rfl
@[simp] theorem State.setDirty_fault (s : State) (b : Bool) : (s.setDirty b).fault = s.fault := rfl
@[simp] theorem State.setDirty_faultInfo (s : State) (b : Bool) : (s.setDirty b).faultInfo = s.faultInfo := rfl
@[simp] theorem State.setDirty_faultPc (s : State) (b : Bool) : (s.setDirty b).faultPc = s.faultPc := rfl
@[simp] theorem State.setDirty_randCount (s : State) (b : Bool) : (s.setDirty b).randCount = s.randCount := rfl
@[simp] theorem State.setDirty_fbUpdates (s : State) (b : Bool) : (s.setDirty b).fbUpdates = s.fbUpdates := rfl
@[simp] theorem State.setDirty_inputs (s : State) (b : Bool) : (s.setDirty b).inputs = s.inputs := rfl

@[simp] theorem State.setKey_v (s : State) (k : Nibble) (p : Bool) : (s.setKey k p).v = s.v := rfl
@[simp] theorem State.setKey_i (s : State) (k : Nibble) (p : Bool) : (s.setKey k p).i = s.i := rfl
@[simp] theorem State.setKey_pc (s : State) (k : Nibble) (p : Bool) : (s.setKey k p).pc = s.pc := rfl
@[simp] theorem State.setKey_stack (s : State) (k : Nibble) (p : Bool) : (s.setKey k p).stack = s.stack := rfl
@[simp] theorem State.setKey_sp (s : State) (k : Nibble) (p : Bool) : (s.setKey k p).sp = s.sp := rfl
@[simp] theorem State.setKey_dt (s : State) (k : Nibble) (p : Bool) : (s.setKey k p).dt = s.dt := rfl
@[simp] theorem State.setKey_st (s : State) (k : Nibble) (p : Bool) : (s.setKey k p).st = s.st := rfl
@[simp] theorem State.setKey_mem (s : State) (k : Nibble) (p : Bool) : (s.setKey k p).mem = s.mem := rfl
@[simp] theorem State.setKey_fb (s : State) (k : Nibble) (p : Bool) : (s.setKey k p).fb = s.fb := rfl
@[simp] theorem State.setKey_dirty (s : State) (k : Nibble) (p : Bool) : (s.setKey k p).dirty = s.dirty := rfl
@[simp] theorem State.setKey_key (s : State) (k : Nibble) (p : Bool) : (s.setKey k p).key = s.key.set k.toNat p := rfl
@[simp] theorem State.setKey_kwait (s : State) (k : Nibble) (p : Bool) : (s.setKey k p).kwait = s.kwait := rfl
@[simp] theorem State.setKey_kreg (s : State) (k : Nibble) (p : Bool) : (s.setKey k p).kreg = s.kreg := rfl
@[simp] theorem State.setKey_run (s : State) (k : Nibble) (p : Bool) : (s.setKey k p).run = s.run := rfl
@[simp] theorem State.setKey_cancel (s : State) (k : Nibble) (p : Bool) : (s.setKey k p).cancel = s.cancel := rfl
@[simp] theorem State.setKey_fault (s : State) (k : Nibble) (p : Bool) : (s.setKey k p).fault = s.fault := rfl
@[simp] theorem State.setKey_faultInfo (s : State) (k : Nibble) (p : Bool) : (s.setKey k p).faultInfo = s.faultInfo := rfl
@[simp] theorem State.setKey_faultPc (s : State) (k : Nibble) (p : Bool) : (s.setKey k p).faultPc = s.faultPc := rfl
@[simp] theorem State.setKey_randCount (s : State) (k : Nibble) (p : Bool) : (s.setKey k p).randCount = s.randCount := rfl
@[simp] theorem State.setKey_fbUpdates (s : State) (k : Nibble) (p : Bool) : (s.setKey k p).fbUpdates = s.fbUpdates := rfl
@[simp] theorem State.setKey_inputs (s : State) (k : Nibble) (p : Bool) : (s.setKey k p).inputs = s.inputs := rfl

@[simp] theorem State.setKwait_v (s : State) (b : Bool) : (s.setKwait b).v = s.v := rfl
@[simp] theorem State.setKwait_i (s : State) (b : Bool) : (s.setKwait b).i = s.i := rfl
@[simp] theorem State.setKwait_pc (s : State) (b : Bool) : (s.setKwait b).pc = s.pc := rfl
@[simp] theorem State.setKwait_stack (s : State) (b : Bool) : (s.setKwait b).stack = s.stack := rfl
@[simp] theorem State.setKwait_sp (s : State) (b : Bool) : (s.setKwait b).sp = s.sp := rfl
@[simp] theorem State.setKwait_dt (s : State) (b : Bool) : (s.setKwait b).dt = s.dt := rfl
@[simp] theorem State.setKwait_st (s : State) (b : Bool) : (s.setKwait b).st = s.st := rfl
@[simp] theorem State.setKwait_mem (s : State) (b : Bool) : (s.setKwait b).mem = s.mem := rfl
@[simp] theorem State.setKwait_fb (s : State) (b : Bool) : (s.setKwait b).fb = s.fb := rfl
@[simp] theorem State.setKwait_dirty (s : State) (b : Bool) : (s.setKwait b).dirty = s.dirty := rfl
@[simp] theorem State.setKwait_key (s : State) (b : Bool) : (s.setKwait b).key = s.key := rfl
@[simp] theorem State.setKwait_kwait (s : State) (b : Bool) : (s.setKwait b).kwait = b := rfl
@[simp] theorem State.setKwait_kreg (s : State) (b : Bool) : (s.setKwait b).kreg = s.kreg := rfl
@[simp] theorem State.setKwait_run (s : State) (b : Bool) : (s.setKwait b).run = s.run := rfl
@[simp] theorem State.setKwait_cancel (s : State) (b : Bool) : (s.setKwait b).cancel = s.cancel := rfl
@[simp] theorem State.setKwait_fault (s : State) (b : Bool) : (s.setKwait b).fault = s.fault := rfl
@[simp] theorem State.setKwait_faultInfo (s : State) (b : Bool) : (s.setKwait b).faultInfo = s.faultInfo := rfl
@[simp] theorem State.setKwait_faultPc (s : State) (b : Bool) : (s.setKwait b).faultPc = s.faultPc := rfl
@[simp] theorem State.setKwait_randCount (s : State) (b : Bool) : (s.setKwait b).randCount = s.randCount := rfl
@[simp] theorem State.setKwait_fbUpdates (s : State) (b : Bool) : (s.setKwait b).fbUpdates = s.fbUpdates := rfl
@[simp] theorem State.setKwait_inputs (s : State) (b : Bool) : (s.setKwait b).inputs = s.inputs := rfl

@[simp] theorem State.setKreg_v (s : State) (x : Nibble) : (s.setKreg x).v = s.v := rfl
@[simp] theorem State.setKreg_i (s : State) (x : Nibble) : (s.setKreg x).i = s.i := rfl
@[simp] theorem State.setKreg_pc (s : State) (x : Nibble) : (s.setKreg x).pc = s.pc := rfl
@[simp] theorem State.setKreg_stack (s : State) (x : Nibble) : (s.setKreg x).stack = s.stack := rfl
@[simp] theorem State.setKreg_sp (s : State) (x : Nibble) : (s.setKreg x).sp = s.sp := rfl
@[simp] theorem State.setKreg_dt (s : State) (x : Nibble) : (s.setKreg x).dt = s.dt := rfl
@[simp] theorem State.setKreg_st (s : State) (x : Nibble) : (s.setKreg x).st = s.st := rfl
@[simp] theorem State.setKreg_mem (s : State) (x : Nibble) : (s.setKreg x).mem = s.mem := rfl
@[simp] theorem State.setKreg_fb (s : State) (x : Nibble) : (s.setKreg x).fb = s.fb := rfl
@[simp] theorem State.setKreg_dirty (s : State) (x : Nibble) : (s.setKreg x).dirty = s.dirty := rfl
@[simp] theorem State.setKreg_key (s : State) (x : Nibble) : (s.setKreg x).key = s.key := rfl
@[simp] theorem State.setKreg_kwait (s : State) (x : Nibble) : (s.setKreg x).kwait = s.kwait := rfl
@[simp] theorem State.setKreg_kreg (s : State) (x : Nibble) : (s.setKreg x).kreg = x := rfl
@[simp] theorem State.setKreg_run (s : State) (x : Nibble) : (s.setKreg x).run = s.run := rfl
@[simp] theorem State.setKreg_cancel (s : State) (x : Nibble) : (s.setKreg x).cancel = s.cancel := rfl
@[simp] theorem State.setKreg_fault (s : State) (x : Nibble) : (s.setKreg x).fault = s.fault := rfl
@[simp] theorem State.setKreg_faultInfo (s : State) (x : Nibble) : (s.setKreg x).faultInfo = s.faultInfo := rfl
@[simp] theorem State.setKreg_faultPc (s : State) (x : Nibble) : (s.setKreg x).faultPc = s.faultPc := rfl
@[simp] theorem State.setKreg_randCount (s : State) (x : Nibble) : (s.setKreg x).randCount = s.randCount := rfl
@[simp] theorem State.setKreg_fbUpdates (s : State) (x : Nibble) : (s.setKreg x).fbUpdates = s.fbUpdates := rfl
@[simp] theorem State.setKreg_inputs (s : State) (x : Nibble) : (s.setKreg x).inputs = s.inputs := rfl

@[simp] theorem State.setRun_v (s : State) (r : RunState) : (s.setRun r).v = s.v := rfl
@[simp] theorem State.setRun_i (s : State) (r : RunState) : (s.setRun r).i = s.i := rfl
@[simp] theorem State.setRun_pc (s : State) (r : RunState) : (s.setRun r).pc = s.pc := rfl
@[simp] theorem State.setRun_stack (s : State) (r : RunState) : (s.setRun r).stack = s.stack := rfl
@[simp] theorem State.setRun_sp (s : State) (r : RunState) : (s.setRun r).sp = s.sp := rfl
@[simp] theorem State.setRun_dt (s : State) (r : RunState) : (s.setRun r).dt = s.dt := rfl
@[simp] theorem State.setRun_st (s : State) (r : RunState) : (s.setRun r).st = s.st := rfl
@[simp] theorem State.setRun_mem (s : State) (r : RunState) : (s.setRun r).mem = s.mem := rfl
@[simp] theorem State.setRun_fb (s : State) (r : RunState) : (s.setRun r).fb = s.fb := rfl
@[simp] theorem State.setRun_dirty (s : State) (r : RunState) : (s.setRun r).dirty = s.dirty := rfl
@[simp] theorem State.setRun_key (s : State) (r : RunState) : (s.setRun r).key = s.key := rfl
@[simp] theorem State.setRun_kwait (s : State) (r : RunState) : (s.setRun r).kwait = s.kwait := rfl
@[simp] theorem State.setRun_kreg (s : State) (r : RunState) : (s.setRun r).kreg = s.kreg := rfl
@[simp] theorem State.setRun_run (s : State) (r : RunState) : (s.setRun r).run = r := rfl
@[simp] theorem State.setRun_cancel (s : State) (r : RunState) : (s.setRun r).cancel = s.cancel := rfl
@[simp] theorem State.setRun_fault (s : State) (r : RunState) : (s.setRun r).fault = s.fault := rfl
@[simp] theorem State.setRun_faultInfo (s : State) (r : RunState) : (s.setRun r).faultInfo = s.faultInfo := rfl
@[simp] theorem State.setRun_faultPc (s : State) (r : RunState) : (s.setRun r).faultPc = s.faultPc := rfl
@[simp] theorem State.setRun_randCount (s : State) (r : RunState) : (s.setRun r).randCount = s.randCount := rfl
@[simp] theorem State.setRun_fbUpdates (s : State) (r : RunState) : (s.setRun r).fbUpdates = s.fbUpdates := rfl
@[simp] theorem State.setRun_inputs (s : State) (r : RunState) : (s.setRun r).inputs = s.inputs := rfl

@[simp] theorem State.setCancel_v (s : State) (b : Bool) : (s.setCancel b).v = s.v := rfl
@[simp] theorem State.setCancel_i (s : State) (b : Bool) : (s.setCancel b).i = s.i := rfl
@[simp] theorem State.setCancel_pc (s : State) (b : Bool) : (s.setCancel b).pc = s.pc := rfl
@[simp] theorem State.setCancel_stack (s : State) (b : Bool) : (s.setCancel b).stack = s.stack := rfl
@[simp] theorem State.setCancel_sp (s : State) (b : Bool) : (s.setCancel b).sp = s.sp := rfl
@[simp] theorem State.setCancel_dt (s : State) (b : Bool) : (s.setCancel b).dt = s.dt := rfl
@[simp] theorem State.setCancel_st (s : State) (b : Bool) : (s.setCancel b).st = s.st := rfl
@[simp] theorem State.setCancel_mem (s : State) (b : Bool) : (s.setCancel b).mem = s.mem := rfl
@[simp] theorem State.setCancel_fb (s : State) (b : Bool) : (s.setCancel b).fb = s.fb := rfl
@[simp] theorem State.setCancel_dirty (s : State) (b : Bool) : (s.setCancel b).dirty = s.dirty := rfl
@[simp] theorem State.setCancel_key (s : State) (b : Bool) : (s.setCancel b).key = s.key := rfl
@[simp] theorem State.setCancel_kwait (s : State) (b : Bool) : (s.setCancel b).kwait = s.kwait := rfl
@[simp] theorem State.setCancel_kreg (s : State) (b : Bool) : (s.setCancel b).kreg = s.kreg := rfl
@[simp] theorem State.setCancel_run (s : State) (b : Bool) : (s.setCancel b).run = s.run := rfl
@[simp] theorem State.setCancel_cancel (s : State) (b : Bool) : (s.setCancel b).cancel = b := rfl
@[simp] theorem State.setCancel_fault (s : State) (b : Bool) : (s.setCancel b).fault = s.fault := rfl
@[simp] theorem State.setCancel_faultInfo (s : State) (b : Bool) : (s.setCancel b).faultInfo = s.faultInfo := rfl
@[simp] theorem State.setCancel_faultPc (s : State) (b : Bool) : (s.setCancel b).faultPc = s.faultPc := rfl
@[simp] theorem State.setCancel_randCount (s : State) (b : Bool) : (s.setCancel b).randCount = s.randCount := rfl
@[simp] theorem State.setCancel_fbUpdates (s : State) (b : Bool) : (s.setCancel b).fbUpdates = s.fbUpdates := rfl
@[simp] theorem State.setCancel_inputs (s : State) (b : Bool) : (s.setCancel b).inputs = s.inputs := rfl

@[simp] theorem State.setFault_v (s : State) (c : FaultCode) (info p : Word) : (s.setFault c info p).v = s.v := rfl
@[simp] theorem State.setFault_i (s : State) (c : FaultCode) (info p : Word) : (s.setFault c info p).i = s.i := rfl
@[simp] theorem State.setFault_pc (s : State) (c : FaultCode) (info p : Word) : (s.setFault c info p).pc = s.pc := rfl
@[simp] theorem State.setFault_stack (s : State) (c : FaultCode) (info p : Word) : (s.setFault c info p).stack = s.stack := rfl
@[simp] theorem State.setFault_sp (s : State) (c : FaultCode) (info p : Word) : (s.setFault c info p).sp = s.sp := rfl
@[simp] theorem State.setFault_dt (s : State) (c : FaultCode) (info p : Word) : (s.setFault c info p).dt = s.dt := rfl
@[simp] theorem State.setFault_st (s : State) (c : FaultCode) (info p : Word) : (s.setFault c info p).st = s.st := rfl
@[simp] theorem State.setFault_mem (s : State) (c : FaultCode) (info p : Word) : (s.setFault c info p).mem = s.mem := rfl
@[simp] theorem State.setFault_fb (s : State) (c : FaultCode) (info p : Word) : (s.setFault c info p).fb = s.fb := rfl
@[simp] theorem State.setFault_dirty (s : State) (c : FaultCode) (info p : Word) : (s.setFault c info p).dirty = s.dirty := rfl
@[simp] theorem State.setFault_key (s : State) (c : FaultCode) (info p : Word) : (s.setFault c info p).key = s.key := rfl
@[simp] theorem State.setFault_kwait (s : State) (c : FaultCode) (info p : Word) : (s.setFault c info p).kwait = s.kwait := rfl
@[simp] theorem State.setFault_kreg (s : State) (c : FaultCode) (info p : Word) : (s.setFault c info p).kreg = s.kreg := rfl
@[simp] theorem State.setFault_run (s : State) (c : FaultCode) (info p : Word) : (s.setFault c info p).run = s.run := rfl
@[simp] theorem State.setFault_cancel (s : State) (c : FaultCode) (info p : Word) : (s.setFault c info p).cancel = s.cancel := rfl
@[simp] theorem State.setFault_fault (s : State) (c : FaultCode) (info p : Word) : (s.setFault c info p).fault = c := rfl
@[simp] theorem State.setFault_faultInfo (s : State) (c : FaultCode) (info p : Word) : (s.setFault c info p).faultInfo = info := rfl
@[simp] theorem State.setFault_faultPc (s : State) (c : FaultCode) (info p : Word) : (s.setFault c info p).faultPc = p := rfl
@[simp] theorem State.setFault_randCount (s : State) (c : FaultCode) (info p : Word) : (s.setFault c info p).randCount = s.randCount := rfl
@[simp] theorem State.setFault_fbUpdates (s : State) (c : FaultCode) (info p : Word) : (s.setFault c info p).fbUpdates = s.fbUpdates := rfl
@[simp] theorem State.setFault_inputs (s : State) (c : FaultCode) (info p : Word) : (s.setFault c info p).inputs = s.inputs := rfl

@[simp] theorem State.countRand_v (s : State) : (s.countRand).v = s.v := rfl
@[simp] theorem State.countRand_i (s : State) : (s.countRand).i = s.i := rfl
@[simp] theorem State.countRand_pc (s : State) : (s.countRand).pc = s.pc := rfl
@[simp] theorem State.countRand_stack (s : State) : (s.countRand).stack = s.stack := rfl
@[simp] theorem State.countRand_sp (s : State) : (s.countRand).sp = s.sp := rfl
@[simp] theorem State.countRand_dt (s : State) : (s.countRand).dt = s.dt := rfl
@[simp] theorem State.countRand_st (s : State) : (s.countRand).st = s.st := rfl
@[simp] theorem State.countRand_mem (s : State) : (s.countRand).mem = s.mem := rfl
@[simp] theorem State.countRand_fb (s : State) : (s.countRand).fb = s.fb := rfl
@[simp] theorem State.countRand_dirty (s : State) : (s.countRand).dirty = s.dirty := rfl
@[simp] theorem State.countRand_key (s : State) : (s.countRand).key = s.key := rfl
@[simp] theorem State.countRand_kwait (s : State) : (s.countRand).kwait = s.kwait := rfl
@[simp] theorem State.countRand_kreg (s : State) : (s.countRand).kreg = s.kreg := rfl
@[simp] theorem State.countRand_run (s : State) : (s.countRand).run = s.run := rfl
@[simp] theorem State.countRand_cancel (s : State) : (s.countRand).cancel = s.cancel := rfl
@[simp] theorem State.countRand_fault (s : State) : (s.countRand).fault = s.fault := rfl
@[simp] theorem State.countRand_faultInfo (s : State) : (s.countRand).faultInfo = s.faultInfo := rfl
@[simp] theorem State.countRand_faultPc (s : State) : (s.countRand).faultPc = s.faultPc := rfl
@[simp] theorem State.countRand_randCount (s : State) : (s.countRand).randCount = s.randCount + 1 := rfl
@[simp] theorem State.countRand_fbUpdates (s : State) : (s.countRand).fbUpdates = s.fbUpdates := rfl
@[simp] theorem State.countRand_inputs (s : State) : (s.countRand).inputs = s.inputs := rfl

@[simp] theorem State.notify_v (s : State) : (s.notify).v = s.v := rfl
@[simp] theorem State.notify_i (s : State) : (s.notify).i = s.i := rfl
@[simp] theorem State.notify_pc (s : State) : (s.notify).pc = s.pc := rfl
@[simp] theorem State.notify_stack (s : State) : (s.notify).stack = s.stack := rfl
@[simp] theorem State.notify_sp (s : State) : (s.notify).sp = s.sp := rfl
@[simp] theorem State.notify_dt (s : State) : (s.notify).dt = s.dt := rfl
@[simp] theorem State.notify_st (s : State) : (s.notify).st = s.st := rfl
@[simp] theorem State.notify_mem (s : State) : (s.notify).mem = s.mem := rfl
@[simp] theorem State.notify_fb (s : State) : (s.notify).fb = s.fb := rfl
@[simp] theorem State.notify_dirty (s : State) : (s.notify).dirty = false := rfl
@[simp] theorem State.notify_key (s : State) : (s.notify).key = s.key := rfl
@[simp] theorem State.notify_kwait (s : State) : (s.notify).kwait = s.kwait := rfl
@[simp] theorem State.notify_kreg (s : State) : (s.notify).kreg = s.kreg := rfl
@[simp] theorem State.notify_run (s : State) : (s.notify).run = s.run := rfl
@[simp] theorem State.notify_cancel (s : State) : (s.notify).cancel = s.cancel := rfl
@[simp] theorem State.notify_fault (s : State) : (s.notify).fault = s.fault := rfl
@[simp] theorem State.notify_faultInfo (s : State) : (s.notify).faultInfo = s.faultInfo := rfl
@[simp] theorem State.notify_faultPc (s : State) : (s.notify).faultPc = s.faultPc := rfl
@[simp] theorem State.notify_randCount (s : State) : (s.notify).randCount = s.randCount := rfl
@[simp] theorem State.notify_fbUpdates (s : State) : (s.notify).fbUpdates = s.fbUpdates + 1 := rfl
@[simp] theorem State.notify_inputs (s : State) : (s.notify).inputs = s.inputs := rfl

@[simp] theorem State.setInputs_v (s : State) (l : List Event) : (s.setInputs l).v = s.v := rfl
@[simp] theorem State.setInputs_i (s : State) (l : List Event) : (s.setInputs l).i = s.i := rfl
@[simp] theorem State.setInputs_pc (s : State) (l : List Event) : (s.setInputs l).pc = s.pc := rfl
@[simp] theorem State.setInputs_stack (s : State) (l : List Event) : (s.setInputs l).stack = s.stack := rfl
@[simp] theorem State.setInputs_sp (s : State) (l : List Event) : (s.setInputs l).sp = s.sp := rfl
@[simp] theorem State.setInputs_dt (s : State) (l : List Event) : (s.setInputs l).dt = s.dt := rfl
@[simp] theorem State.setInputs_st (s : State) (l : List Event) : (s.setInputs l).st = s.st := rfl
@[simp] theorem State.setInputs_mem (s : State) (l : List Event) : (s.setInputs l).mem = s.mem := rfl
@[simp] theorem State.setInputs_fb (s : State) (l : List Event) : (s.setInputs l).fb = s.fb := rfl
@[simp] theorem State.setInputs_dirty (s : State) (l : List Event) : (s.setInputs l).dirty = s.dirty := rfl
@[simp] theorem State.setInputs_key (s : State) (l : List Event) : (s.setInputs l).key = s.key := rfl
@[simp] theorem State.setInputs_kwait (s : State) (l : List Event) : (s.setInputs l).kwait = s.kwait := rfl
@[simp] theorem State.setInputs_kreg (s : State) (l : List Event) : (s.setInputs l).kreg = s.kreg := rfl
@[simp] theorem State.setInputs_run (s : State) (l : List Event) : (s.setInputs l).run = s.run := rfl
@[simp] theorem State.setInputs_cancel (s : State) (l : List Event) : (s.setInputs l).cancel = s.cancel := rfl
@[simp] theorem State.setInputs_fault (s : State) (l : List Event) : (s.setInputs l).fault = s.fault := rfl
@[simp] theorem State.setInputs_faultInfo (s : State) (l : List Event) : (s.setInputs l).faultInfo = s.faultInfo := rfl
@[simp] theorem State.setInputs_faultPc (s : State) (l : List Event) : (s.setInputs l).faultPc = s.faultPc := rfl
@[simp] theorem State.setInputs_randCount (s : State) (l : List Event) : (s.setInputs l).randCount = s.randCount := rfl
@[simp] theorem State.setInputs_fbUpdates (s : State) (l : List Event) : (s.setInputs l).fbUpdates = s.fbUpdates := rfl
@[simp] theorem State.setInputs_inputs (s : State) (l : List Event) : (s.setInputs l).inputs = l := rfl

@[simp] theorem State.enterFault_v (s : State) (t : Trap) (p : Word) : (s.enterFault t p).v = s.v := rfl
@[simp] theorem State.enterFault_i (s : State) (t : Trap) (p : Word) : (s.enterFault t p).i = s.i := rfl
@[simp] theorem State.enterFault_pc (s : State) (t : Trap) (p : Word) : (s.enterFault t p).pc = s.pc := rfl
@[simp] theorem State.enterFault_stack (s : State) (t : Trap) (p : Word) : (s.enterFault t p).stack = s.stack := rfl
@[simp] theorem State.enterFault_sp (s : State) (t : Trap) (p : Word) : (s.enterFault t p).sp = s.sp := rfl
@[simp] theorem State.enterFault_dt (s : State) (t : Trap) (p : Word) : (s.enterFault t p).dt = s.dt := rfl
@[simp] theorem State.enterFault_st (s : State) (t : Trap) (p : Word) : (s.enterFault t p).st = s.st := rfl
@[simp] theorem State.enterFault_mem (s : State) (t : Trap) (p : Word) : (s.enterFault t p).mem = s.mem := rfl
@[simp] theorem State.enterFault_fb (s : State) (t : Trap) (p : Word) : (s.enterFault t p).fb = s.fb := rfl
@[simp] theorem State.enterFault_dirty (s : State) (t : Trap) (p : Word) : (s.enterFault t p).dirty = s.dirty := rfl
@[simp] theorem State.enterFault_key (s : State) (t : Trap) (p : Word) : (s.enterFault t p).key = s.key := rfl
@[simp] theorem State.enterFault_kwait (s : State) (t : Trap) (p : Word) : (s.enterFault t p).kwait = false := rfl
@[simp] theorem State.enterFault_kreg (s : State) (t : Trap) (p : Word) : (s.enterFault t p).kreg = s.kreg := rfl
@[simp] theorem State.enterFault_run (s : State) (t : Trap) (p : Word) : (s.enterFault t p).run = .faulted := rfl
@[simp] theorem State.enterFault_cancel (s : State) (t : Trap) (p : Word) : (s.enterFault t p).cancel = s.cancel := rfl
@[simp] theorem State.enterFault_fault (s : State) (t : Trap) (p : Word) : (s.enterFault t p).fault = t.code := rfl
@[simp] theorem State.enterFault_faultInfo (s : State) (t : Trap) (p : Word) : (s.enterFault t p).faultInfo = t.info := rfl
@[simp] theorem State.enterFault_faultPc (s : State) (t : Trap) (p : Word) : (s.enterFault t p).faultPc = p := rfl
@[simp] theorem State.enterFault_randCount (s : State) (t : Trap) (p : Word) : (s.enterFault t p).randCount = s.randCount := rfl
@[simp] theorem State.enterFault_fbUpdates (s : State) (t : Trap) (p : Word) : (s.enterFault t p).fbUpdates = s.fbUpdates := rfl
@[simp] theorem State.enterFault_inputs (s : State) (t : Trap) (p : Word) : (s.enterFault t p).inputs = s.inputs := rfl

@[simp] theorem State.raise_v (s : State) (t : Trap) : (s.raise t).v = s.v := rfl
@[simp] theorem State.raise_i (s : State) (t : Trap) : (s.raise t).i = s.i := rfl
@[simp] theorem State.raise_pc (s : State) (t : Trap) : (s.raise t).pc = s.pc := rfl
@[simp] theorem State.raise_stack (s : State) (t : Trap) : (s.raise t).stack = s.stack := rfl
@[simp] theorem State.raise_sp (s : State) (t : Trap) : (s.raise t).sp = s.sp := rfl
@[simp] theorem State.raise_dt (s : State) (t : Trap) : (s.raise t).dt = s.dt := rfl
@[simp] theorem State.raise_st (s : State) (t : Trap) : (s.raise t).st = s.st := rfl
@[simp] theorem State.raise_mem (s : State) (t : Trap) : (s.raise t).mem = s.mem := rfl
@[simp] theorem State.raise_fb (s : State) (t : Trap) : (s.raise t).fb = s.fb := rfl
@[simp] theorem State.raise_dirty (s : State) (t : Trap) : (s.raise t).dirty = s.dirty := rfl
@[simp] theorem State.raise_key (s : State) (t : Trap) : (s.raise t).key = s.key := rfl
@[simp] theorem State.raise_kwait (s : State) (t : Trap) : (s.raise t).kwait = false := rfl
@[simp] theorem State.raise_kreg (s : State) (t : Trap) : (s.raise t).kreg = s.kreg := rfl
@[simp] theorem State.raise_run (s : State) (t : Trap) : (s.raise t).run = .faulted := rfl
@[simp] theorem State.raise_cancel (s : State) (t : Trap) : (s.raise t).cancel = s.cancel := rfl
@[simp] theorem State.raise_fault (s : State) (t : Trap) : (s.raise t).fault = t.code := rfl
@[simp] theorem State.raise_faultInfo (s : State) (t : Trap) : (s.raise t).faultInfo = t.info := rfl
@[simp] theorem State.raise_faultPc (s : State) (t : Trap) : (s.raise t).faultPc = s.pc := rfl
@[simp] theorem State.raise_randCount (s : State) (t : Trap) : (s.raise t).randCount = s.randCount := rfl
@[simp] theorem State.raise_fbUpdates (s : State) (t : Trap) : (s.raise t).fbUpdates = s.fbUpdates := rfl
@[simp] theorem State.raise_inputs (s : State) (t : Trap) : (s.raise t).inputs = s.inputs := rfl

@[simp] theorem State.writeFlagThenResult_v (s : State) (x : Nibble) (g r : Byte) : (s.writeFlagThenResult x g r).v = (s.v.set vf.toNat g).set x.toNat r := rfl
@[simp] theorem State.writeFlagThenResult_i (s : State) (x : Nibble) (g r : Byte) : (s.writeFlagThenResult x g r).i = s.i := rfl
@[simp] theorem State.writeFlagThenResult_pc (s : State) (x : Nibble) (g r : Byte) : (s.writeFlagThenResult x g r).pc = s.pc := rfl
@[simp] theorem State.writeFlagThenResult_stack (s : State) (x : Nibble) (g r : Byte) : (s.writeFlagThenResult x g r).stack = s.stack := rfl
@[simp] theorem State.writeFlagThenResult_sp (s : State) (x : Nibble) (g r : Byte) : (s.writeFlagThenResult x g r).sp = s.sp := rfl
@[simp] theorem State.writeFlagThenResult_dt (s : State) (x : Nibble) (g r : Byte) : (s.writeFlagThenResult x g r).dt = s.dt := rfl
@[simp] theorem State.writeFlagThenResult_st (s : State) (x : Nibble) (g r : Byte) : (s.writeFlagThenResult x g r).st = s.st := rfl
@[simp] theorem State.writeFlagThenResult_mem (s : State) (x : Nibble) (g r : Byte) : (s.writeFlagThenResult x g r).mem = s.mem := rfl
@[simp] theorem State.writeFlagThenResult_fb (s : State) (x : Nibble) (g r : Byte) : (s.writeFlagThenResult x g r).fb = s.fb := rfl
@[simp] theorem State.writeFlagThenResult_dirty (s : State) (x : Nibble) (g r : Byte) : (s.writeFlagThenResult x g r).dirty = s.dirty := rfl
@[simp] theorem State.writeFlagThenResult_key (s : State) (x : Nibble) (g r : Byte) : (s.writeFlagThenResult x g r).key = s.key := rfl
@[simp] theorem State.writeFlagThenResult_kwait (s : State) (x : Nibble) (g r : Byte) : (s.writeFlagThenResult x g r).kwait = s.kwait := rfl
@[simp] theorem State.writeFlagThenResult_kreg (s : State) (x : Nibble) (g r : Byte) : (s.writeFlagThenResult x g r).kreg = s.kreg := rfl
@[simp] theorem State.writeFlagThenResult_run (s : State) (x : Nibble) (g r : Byte) : (s.writeFlagThenResult x g r).run = s.run := rfl
@[simp] theorem State.writeFlagThenResult_cancel (s : State) (x : Nibble) (g r : Byte) : (s.writeFlagThenResult x g r).cancel = s.cancel := rfl
@[simp] theorem State.writeFlagThenResult_fault (s : State) (x : Nibble) (g r : Byte) : (s.writeFlagThenResult x g r).fault = s.fault := rfl
@[simp] theorem State.writeFlagThenResult_faultInfo (s : State) (x : Nibble) (g r : Byte) : (s.writeFlagThenResult x g r).faultInfo = s.faultInfo := rfl
@[simp] theorem State.writeFlagThenResult_faultPc (s : State) (x : Nibble) (g r : Byte) : (s.writeFlagThenResult x g r).faultPc = s.faultPc := rfl
@[simp] theorem State.writeFlagThenResult_randCount (s : State) (x : Nibble) (g r : Byte) : (s.writeFlagThenResult x g r).randCount = s.randCount := rfl
@[simp] theorem State.writeFlagThenResult_fbUpdates (s : State) (x : Nibble) (g r : Byte) : (s.writeFlagThenResult x g r).fbUpdates = s.fbUpdates := rfl
@[simp] theorem State.writeFlagThenResult_inputs (s : State) (x : Nibble) (g r : Byte) : (s.writeFlagThenResult x g r).inputs = s.inputs := rfl

@[simp] theorem State.notifyIf_v (s : State) (c : Bool) : (s.notifyIf c).v = s.v := by
  cases c <;> rfl
@[simp] theorem State.notifyIf_i (s : State) (c : Bool) : (s.notifyIf c).i = s.i := by
  cases c <;> rfl
@[simp] theorem State.notifyIf_pc (s : State) (c : Bool) : (s.notifyIf c).pc = s.pc := by
  cases c <;> rfl
@[simp] theorem State.notifyIf_stack (s : State) (c : Bool) : (s.notifyIf c).stack = s.stack := by
  cases c <;> rfl
@[simp] theorem State.notifyIf_sp (s : State) (c : Bool) : (s.notifyIf c).sp = s.sp := by
  cases c <;> rfl
@[simp] theorem State.notifyIf_dt (s : State) (c : Bool) : (s.notifyIf c).dt = s.dt := by
  cases c <;> rfl
@[simp] theorem State.notifyIf_st (s : State) (c : Bool) : (s.notifyIf c).st = s.st := by
  cases c <;> rfl
@[simp] theorem State.notifyIf_mem (s : State) (c : Bool) : (s.notifyIf c).mem = s.mem := by
  cases c <;> rfl
@[simp] theorem State.notifyIf_fb (s : State) (c : Bool) : (s.notifyIf c).fb = s.fb := by
  cases c <;> rfl
@[simp] theorem State.notifyIf_dirty (s : State) (c : Bool) : (s.notifyIf c).dirty = if c then false else s.dirty := by
  cases c <;> rfl
@[simp] theorem State.notifyIf_key (s : State) (c : Bool) : (s.notifyIf c).key = s.key := by
  cases c <;> rfl
@[simp] theorem State.notifyIf_kwait (s : State) (c : Bool) : (s.notifyIf c).kwait = s.kwait := by
  cases c <;> rfl
@[simp] theorem State.notifyIf_kreg (s : State) (c : Bool) : (s.notifyIf c).kreg = s.kreg := by
  cases c <;> rfl
@[simp] theorem State.notifyIf_run (s : State) (c : Bool) : (s.notifyIf c).run = s.run := by
  cases c <;> rfl
@[simp] theorem State.notifyIf_cancel (s : State) (c : Bool) : (s.notifyIf c).cancel = s.cancel := by
  cases c <;> rfl
@[simp] theorem State.notifyIf_fault (s : State) (c : Bool) : (s.notifyIf c).fault = s.fault := by
  cases c <;> rfl
@[simp] theorem State.notifyIf_faultInfo (s : State) (c : Bool) : (s.notifyIf c).faultInfo = s.faultInfo := by
  cases c <;> rfl
@[simp] theorem State.notifyIf_faultPc (s : State) (c : Bool) : (s.notifyIf c).faultPc = s.faultPc := by
  cases c <;> rfl
@[simp] theorem State.notifyIf_randCount (s : State) (c : Bool) : (s.notifyIf c).randCount = s.randCount := by
  cases c <;> rfl
@[simp] theorem State.notifyIf_fbUpdates (s : State) (c : Bool) : (s.notifyIf c).fbUpdates = if c then s.fbUpdates + 1 else s.fbUpdates := by
  cases c <;> rfl
@[simp] theorem State.notifyIf_inputs (s : State) (c : Bool) : (s.notifyIf c).inputs = s.inputs := by
  cases c <;> rfl

@[simp] theorem State.loadRegs_i (s : State) (a : Nat) (l : List Byte) : (s.loadRegs a l).i = s.i := by
  induction l generalizing s a with
  | nil => rfl
  | cons b bs ih => simp [State.loadRegs, ih]
@[simp] theorem State.loadRegs_pc (s : State) (a : Nat) (l : List Byte) : (s.loadRegs a l).pc = s.pc := by
  induction l generalizing s a with
  | nil => rfl
  | cons b bs ih => simp [State.loadRegs, ih]
@[simp] theorem State.loadRegs_stack (s : State) (a : Nat) (l : List Byte) : (s.loadRegs a l).stack = s.stack := by
  induction l generalizing s a with
  | nil => rfl
  | cons b bs ih => simp [State.loadRegs, ih]
@[simp] theorem State.loadRegs_sp (s : State) (a : Nat) (l : List Byte) : (s.loadRegs a l).sp = s.sp := by
  induction l generalizing s a with
  | nil => rfl
  | cons b bs ih => simp [State.loadRegs, ih]
@[simp] theorem State.loadRegs_dt (s : State) (a : Nat) (l : List Byte) : (s.loadRegs a l).dt = s.dt := by
  induction l generalizing s a with
  | nil => rfl
  | cons b bs ih => simp [State.loadRegs, ih]
@[simp] theorem State.loadRegs_st (s : State) (a : Nat) (l : List Byte) : (s.loadRegs a l).st = s.st := by
  induction l generalizing s a with
  | nil => rfl
  | cons b bs ih => simp [State.loadRegs, ih]
@[simp] theorem State.loadRegs_mem (s : State) (a : Nat) (l : List Byte) : (s.loadRegs a l).mem = s.mem := by
  induction l generalizing s a with
  | nil => rfl
  | cons b bs ih => simp [State.loadRegs, ih]
@[simp] theorem State.loadRegs_fb (s : State) (a : Nat) (l : List Byte) : (s.loadRegs a l).fb = s.fb := by
  induction l generalizing s a with
  | nil => rfl
  | cons b bs ih => simp [State.loadRegs, ih]
@[simp] theorem State.loadRegs_dirty (s : State) (a : Nat) (l : List Byte) : (s.loadRegs a l).dirty = s.dirty := by
  induction l generalizing s a with
  | nil => rfl
  | cons b bs ih => simp [State.loadRegs, ih]
@[simp] theorem State.loadRegs_key (s : State) (a : Nat) (l : List Byte) : (s.loadRegs a l).key = s.key := by
  induction l generalizing s a with
  | nil => rfl
  | cons b bs ih => simp [State.loadRegs, ih]
@[simp] theorem State.loadRegs_kwait (s : State) (a : Nat) (l : List Byte) : (s.loadRegs a l).kwait = s.kwait := by
  induction l generalizing s a with
  | nil => rfl
  | cons b bs ih => simp [State.loadRegs, ih]
@[simp] theorem State.loadRegs_kreg (s : State) (a : Nat) (l : List Byte) : (s.loadRegs a l).kreg = s.kreg := by
  induction l generalizing s a with
  | nil => rfl
  | cons b bs ih => simp [State.loadRegs, ih]
@[simp] theorem State.loadRegs_run (s : State) (a : Nat) (l : List Byte) : (s.loadRegs a l).run = s.run := by
  induction l generalizing s a with
  | nil => rfl
  | cons b bs ih => simp [State.loadRegs, ih]
@[simp] theorem State.loadRegs_cancel (s : State) (a : Nat) (l : List Byte) : (s.loadRegs a l).cancel = s.cancel := by
  induction l generalizing s a with
  | nil => rfl
  | cons b bs ih => simp [State.loadRegs, ih]
@[simp] theorem State.loadRegs_fault (s : State) (a : Nat) (l : List Byte) : (s.loadRegs a l).fault = s.fault := by
  induction l generalizing s a with
  | nil => rfl
  | cons b bs ih => simp [State.loadRegs, ih]
@[simp] theorem State.loadRegs_faultInfo (s : State) (a : Nat) (l : List Byte) : (s.loadRegs a l).faultInfo = s.faultInfo := by
  induction l generalizing s a with
  | nil => rfl
  | cons b bs ih => simp [State.loadRegs, ih]
@[simp] theorem State.loadRegs_faultPc (s : State) (a : Nat) (l : List Byte) : (s.loadRegs a l).faultPc = s.faultPc := by
  induction l generalizing s a with
  | nil => rfl
  | cons b bs ih => simp [State.loadRegs, ih]
@[simp] theorem State.loadRegs_randCount (s : State) (a : Nat) (l : List Byte) : (s.loadRegs a l).randCount = s.randCount := by
  induction l generalizing s a with
  | nil => rfl
  | cons b bs ih => simp [State.loadRegs, ih]
@[simp] theorem State.loadRegs_fbUpdates (s : State) (a : Nat) (l : List Byte) : (s.loadRegs a l).fbUpdates = s.fbUpdates := by
  induction l generalizing s a with
  | nil => rfl
  | cons b bs ih => simp [State.loadRegs, ih]
@[simp] theorem State.loadRegs_inputs (s : State) (a : Nat) (l : List Byte) : (s.loadRegs a l).inputs = s.inputs := by
  induction l generalizing s a with
  | nil => rfl
  | cons b bs ih => simp [State.loadRegs, ih]

/-- A register read after a register write. -/
theorem State.getV_setV (s : State) (x r : Nibble) (b : Byte) :
    (s.setV x b).getV r = if r = x then b else s.getV r := by
  simp only [State.getV, State.setV_v, Vector.getElem_set]
  by_cases h : r = x
  · simp [h]
  · have : x.toNat ≠ r.toNat := fun e => h (BitVec.eq_of_toNat_eq e.symm)
    simp [h, this]

@[simp] theorem State.getV_setV_same (s : State) (x : Nibble) (b : Byte) : (s.setV x b).getV x = b := by
  simp [State.getV_setV]

/-- A register read sees only the register file. -/
theorem State.getV_congr {s t : State} (h : s.v = t.v) (r : Nibble) : s.getV r = t.getV r := by
  simp [State.getV, h]

/-- A key read after a key write. -/
theorem State.getKey_setKey (s : State) (k r : Nibble) (p : Bool) :
    (s.setKey k p).getKey r = if r = k then p else s.getKey r := by
  simp only [State.getKey, State.setKey_key, Vector.getElem_set]
  by_cases h : r = k
  · simp [h]
  · have : k.toNat ≠ r.toNat := fun e => h (BitVec.eq_of_toNat_eq e.symm)
    simp [h, this]

@[simp] theorem State.getV_setI (s : State) (w : Word) (q : Nibble) : (s.setI w).getV q = s.getV q := rfl
@[simp] theorem State.getV_setPc (s : State) (w : Word) (q : Nibble) : (s.setPc w).getV q = s.getV q := rfl
@[simp] theorem State.getV_advance (s : State) (q : Nibble) : (s.advance).getV q = s.getV q := rfl
@[simp] theorem State.getV_skipIf (s : State) (c : Bool) (q : Nibble) : (s.skipIf c).getV q = s.getV q := rfl
@[simp] theorem State.getV_setDt (s : State) (b : Byte) (q : Nibble) : (s.setDt b).getV q = s.getV q := rfl
@[simp] theorem State.getV_setSt (s : State) (b : Byte) (q : Nibble) : (s.setSt b).getV q = s.getV q := rfl
@[simp] theorem State.getV_setMem (s : State) (m : Memory) (q : Nibble) : (s.setMem m).getV q = s.getV q := rfl
@[simp] theorem State.getV_setFb (s : State) (f : Screen) (q : Nibble) : (s.setFb f).getV q = s.getV q := rfl
@[simp] theorem State.getV_setDirty (s : State) (b : Bool) (q : Nibble) : (s.setDirty b).getV q = s.getV q := rfl
@[simp] theorem State.getV_setKey (s : State) (k : Nibble) (p : Bool) (q : Nibble) : (s.setKey k p).getV q = s.getV q := rfl
@[simp] theorem State.getV_setKwait (s : State) (b : Bool) (q : Nibble) : (s.setKwait b).getV q = s.getV q := rfl
@[simp] theorem State.getV_setKreg (s : State) (x : Nibble) (q : Nibble) : (s.setKreg x).getV q = s.getV q := rfl
@[simp] theorem State.getV_setRun (s : State) (r : RunState) (q : Nibble) : (s.setRun r).getV q = s.getV q := rfl
@[simp] theorem State.getV_setCancel (s : State) (b : Bool) (q : Nibble) : (s.setCancel b).getV q = s.getV q := rfl
@[simp] theorem State.getV_setFault (s : State) (c : FaultCode) (info p : Word) (q : Nibble) : (s.setFault c info p).getV q = s.getV q := rfl
@[simp] theorem State.getV_countRand (s : State) (q : Nibble) : (s.countRand).getV q = s.getV q := rfl
@[simp] theorem State.getV_notify (s : State) (q : Nibble) : (s.notify).getV q = s.getV q := rfl
@[simp] theorem State.getV_setInputs (s : State) (l : List Event) (q : Nibble) : (s.setInputs l).getV q = s.getV q := rfl
@[simp] theorem State.getV_enterFault (s : State) (t : Trap) (p : Word) (q : Nibble) : (s.enterFault t p).getV q = s.getV q := rfl
@[simp] theorem State.getV_raise (s : State) (t : Trap) (q : Nibble) : (s.raise t).getV q = s.getV q := rfl
@[simp] theorem State.getV_notifyIf (s : State) (c : Bool) (q : Nibble) : (s.notifyIf c).getV q = s.getV q := by
  cases c <;> rfl

@[simp] theorem State.getKey_setV (s : State) (x : Nibble) (b : Byte) (q : Nibble) : (s.setV x b).getKey q = s.getKey q := rfl
@[simp] theorem State.getKey_setI (s : State) (w : Word) (q : Nibble) : (s.setI w).getKey q = s.getKey q := rfl
@[simp] theorem State.getKey_setPc (s : State) (w : Word) (q : Nibble) : (s.setPc w).getKey q = s.getKey q := rfl
@[simp] theorem State.getKey_advance (s : State) (q : Nibble) : (s.advance).getKey q = s.getKey q := rfl
@[simp] theorem State.getKey_skipIf (s : State) (c : Bool) (q : Nibble) : (s.skipIf c).getKey q = s.getKey q := rfl
@[simp] theorem State.getKey_setDt (s : State) (b : Byte) (q : Nibble) : (s.setDt b).getKey q = s.getKey q := rfl
@[simp] theorem State.getKey_setSt (s : State) (b : Byte) (q : Nibble) : (s.setSt b).getKey q = s.getKey q := rfl
@[simp] theorem State.getKey_setMem (s : State) (m : Memory) (q : Nibble) : (s.setMem m).getKey q = s.getKey q := rfl
@[simp] theorem State.getKey_setFb (s : State) (f : Screen) (q : Nibble) : (s.setFb f).getKey q = s.getKey q := rfl
@[simp] theorem State.getKey_setDirty (s : State) (b : Bool) (q : Nibble) : (s.setDirty b).getKey q = s.getKey q := rfl
@[simp] theorem State.getKey_setKwait (s : State) (b : Bool) (q : Nibble) : (s.setKwait b).getKey q = s.getKey q := rfl
@[simp] theorem State.getKey_setKreg (s : State) (x : Nibble) (q : Nibble) : (s.setKreg x).getKey q = s.getKey q := rfl
@[simp] theorem State.getKey_setRun (s : State) (r : RunState) (q : Nibble) : (s.setRun r).getKey q = s.getKey q := rfl
@[simp] theorem State.getKey_setCancel (s : State) (b : Bool) (q : Nibble) : (s.setCancel b).getKey q = s.getKey q := rfl
@[simp] theorem State.getKey_setFault (s : State) (c : FaultCode) (info p : Word) (q : Nibble) : (s.setFault c info p).getKey q = s.getKey q := rfl
@[simp] theorem State.getKey_countRand (s : State) (q : Nibble) : (s.countRand).getKey q = s.getKey q := rfl
@[simp] theorem State.getKey_notify (s : State) (q : Nibble) : (s.notify).getKey q = s.getKey q := rfl
@[simp] theorem State.getKey_setInputs (s : State) (l : List Event) (q : Nibble) : (s.setInputs l).getKey q = s.getKey q := rfl
@[simp] theorem State.getKey_enterFault (s : State) (t : Trap) (p : Word) (q : Nibble) : (s.enterFault t p).getKey q = s.getKey q := rfl
@[simp] theorem State.getKey_raise (s : State) (t : Trap) (q : Nibble) : (s.raise t).getKey q = s.getKey q := rfl
@[simp] theorem State.getKey_writeFlagThenResult (s : State) (x : Nibble) (g r : Byte) (q : Nibble) : (s.writeFlagThenResult x g r).getKey q = s.getKey q := rfl
@[simp] theorem State.getKey_notifyIf (s : State) (c : Bool) (q : Nibble) : (s.notifyIf c).getKey q = s.getKey q := by
  cases c <;> rfl
@[simp] theorem State.getKey_loadRegs (s : State) (a : Nat) (l : List Byte) (q : Nibble) : (s.loadRegs a l).getKey q = s.getKey q := by
  simp [State.getKey]

end Sys2Proof.Machine
end

