-- ==== Sys2Proof/Laws/Ops.lean ====
section
/-! SUPPORT. One lemma per shared operation, saying everything it can do. -/

namespace Sys2Proof.Machine

/-- A run of accesses passes the check exactly when it is empty or ends inside MEM (spec 20 R43). -/
theorem boundsCheck_eq_none {w : Word} {n : Nat} : boundsCheck w n = none ↔ n = 0 ∨ w.toNat + n ≤ 4096 := by
  unfold boundsCheck Config.memSize
  split <;> simp <;> omega

/-- The fault of a run that leaves MEM carries its lowest address outside (spec 60 R204). -/
theorem boundsCheck_eq_some {w : Word} {n : Nat} {t : Trap} :
    boundsCheck w n = some t ↔
      0 < n ∧ 4096 < w.toNat + n ∧ t = ⟨.memBounds, BitVec.ofNat 16 (max w.toNat 4096)⟩ := by
  unfold boundsCheck Config.memSize
  split
  · simp only [Option.some.injEq]
    constructor
    · rintro rfl; exact ⟨by omega, by omega, rfl⟩
    · rintro ⟨-, -, rfl⟩; rfl
  · simp only [reduceCtorEq, false_iff]; omega

theorem State.afterCheck_none (s t : State) : s.afterCheck none t = .next t := rfl

theorem State.afterCheck_some (s t : State) (r : Trap) : s.afterCheck (some r) t = .next (s.raise r) := rfl

/-- A checked effect: the effect where the check found nothing, else fault entry alone (spec 60 R209). -/
theorem State.afterCheck_cases {s e t : State} {c : Option Trap} (h : s.afterCheck c e = .next t) :
    (c = none ∧ t = e) ∨ ∃ r, c = some r ∧ t = s.raise r := by
  cases c with
  | none => exact .inl ⟨rfl, by simpa [State.afterCheck] using h.symm⟩
  | some r => exact .inr ⟨r, rfl, by simpa [State.afterCheck] using h.symm⟩

/-- A push succeeds exactly with fewer than sixteen entries in use (spec 10 R14). -/
theorem State.push_eq_none {s : State} {w : Word} : s.push w = none ↔ s.sp.val = 16 := by
  unfold State.push
  have := s.sp.isLt
  split <;> simp <;> omega

/-- What a push does (spec 10 R14). -/
theorem State.push_eq_some {s t : State} {w : Word} :
    s.push w = some t ↔ ∃ h : s.sp.val < 16,
      t = { s with stack := s.stack.set s.sp.val w, sp := ⟨s.sp.val + 1, by omega⟩ } := by
  unfold State.push
  split
  · rename_i h
    simp only [Option.some.injEq]
    exact ⟨fun e => ⟨h, e.symm⟩, fun ⟨_, e⟩ => e.symm⟩
  · rename_i h
    simp only [reduceCtorEq, false_iff]
    exact fun ⟨h', _⟩ => h h'

/-- A pop succeeds exactly with an entry in use (spec 10 R14). -/
theorem State.pop_eq_none {s : State} : s.pop = none ↔ s.sp.val = 0 := by
  unfold State.pop
  split <;> simp <;> omega

/-- What a pop does (spec 10 R14). -/
theorem State.pop_eq_some {s t : State} {w : Word} :
    s.pop = some (w, t) ↔ ∃ h : 0 < s.sp.val,
      w = s.stack[s.sp.val - 1] ∧ t = { s with sp := ⟨s.sp.val - 1, by omega⟩ } := by
  unfold State.pop
  split
  · rename_i h
    simp only [Option.some.injEq, Prod.mk.injEq]
    exact ⟨fun ⟨e, e'⟩ => ⟨h, e.symm, e'.symm⟩, fun ⟨_, e, e'⟩ => ⟨e.symm, e'.symm⟩⟩
  · rename_i h
    simp only [reduceCtorEq, false_iff]
    exact fun ⟨h', _⟩ => h h'

/-- A value over 15 names no key (spec 44 R142). -/
theorem keyCheck_eq_none {b : Byte} : keyCheck b = none ↔ b.toNat ≤ 15 := by
  unfold keyCheck
  split <;> simp <;> omega

theorem keyCheck_eq_some {b : Byte} {t : Trap} :
    keyCheck b = some t ↔ 15 < b.toNat ∧ t = ⟨.keyRange, zextByte b⟩ := by
  unfold keyCheck
  split
  · rename_i h
    simp only [Option.some.injEq]
    exact ⟨fun e => ⟨h, e.symm⟩, fun ⟨_, e⟩ => e.symm⟩
  · rename_i h
    simp only [reduceCtorEq, false_iff]
    exact fun ⟨h', _⟩ => h h'

/-- The two writes of a flag writer: with X = 15 the result stays (spec 43 R120). -/
theorem State.getV_writeFlagThenResult (s : State) (x : Nibble) (g r : Byte) (q : Nibble) :
    (s.writeFlagThenResult x g r).getV q = if q = x then r else if q = 15 then g else s.getV q := by
  simp only [State.writeFlagThenResult, State.getV_setV, vf]

/-- A run of register loads: byte q - a to register q (spec 45 R158). -/
theorem State.getV_loadRegs (s : State) (a : Nat) (l : List Byte) (ha : a + l.length ≤ 16) (q : Nibble) :
    (s.loadRegs a l).getV q =
      if a ≤ q.toNat ∧ q.toNat < a + l.length then l.getD (q.toNat - a) 0 else s.getV q := by
  induction l generalizing s a with
  | nil => rw [State.loadRegs, if_neg (by simp)]
  | cons b bs ih =>
    simp only [List.length_cons] at ha ⊢
    have hq : q = BitVec.ofNat 4 a ↔ q.toNat = a := by
      constructor
      · rintro rfl; simp; omega
      · intro h; apply BitVec.eq_of_toNat_eq; simp [h]; omega
    rw [State.loadRegs, ih _ _ (by omega), State.getV_setV]
    by_cases hc : q.toNat = a
    · rw [if_neg (by omega), if_pos (hq.mpr hc), if_pos (by omega), hc, Nat.sub_self, List.getD_cons_zero]
    · by_cases h : a + 1 ≤ q.toNat ∧ q.toNat < a + 1 + bs.length
      · have : q.toNat - a = (q.toNat - (a + 1)) + 1 := by omega
        rw [if_pos h, if_pos (by omega), this, List.getD_cons_succ]
      · rw [if_neg h, if_neg (fun e => hc (hq.mp e)), if_neg (by omega)]

@[simp] theorem State.regsUpTo_length (s : State) (x : Nibble) : (s.regsUpTo x).length = x.toNat + 1 := by
  have := x.isLt
  simp [State.regsUpTo]; omega

/-- Byte j of the registers V[0] to V[X] is V[j] (spec 45 R157). -/
theorem State.getD_regsUpTo (s : State) (x q : Nibble) (d : Byte) (h : q.toNat ≤ x.toNat) :
    (s.regsUpTo x).getD q.toNat d = s.getV q := by
  have := x.isLt
  have := q.isLt
  rw [State.regsUpTo, List.getD_eq_getElem?_getD, List.getElem?_take_of_lt (by omega)]
  simp [State.getV, Vector.getElem?_eq_getElem (show q.toNat < 16 by omega)]

@[simp] theorem bcdDigits_length (b : Byte) : (bcdDigits b).length = 3 := rfl

end Sys2Proof.Machine
end

