-- ==== Sys2Proof/Laws/Events.lean ====
section
/-! SUPPORT. What the host operations and the transitions of a step do, each once. -/

namespace Sys2Proof.Machine

/-- Reset is accepted in STOPPED and FAULTED (spec 70 R263). -/
theorem State.hostReset_accepted {s : State} (h : s.run = .stopped ∨ s.run = .faulted) :
    s.hostReset = s.resetMachine := by
  rcases h with h | h <;> simp [State.hostReset, h]

/-- Load is accepted in STOPPED (spec 70 R263). -/
theorem State.hostLoad_accepted {s : State} (h : s.run = .stopped) (l : List Byte) :
    s.hostLoad l = s.loadProgram l := by simp [State.hostLoad, h]

/-- Run is accepted in STOPPED (spec 70 R263). -/
theorem State.hostRun_accepted {s : State} (h : s.run = .stopped) :
    s.hostRun = (s.setCancel false).setRun .running := by simp [State.hostRun, h]

/-- Each host operation is its accepted form in the run states that accept it, else nothing. -/
theorem State.hostReset_cases (s : State) :
    ((s.run = .stopped ∨ s.run = .faulted) ∧ s.hostReset = s.resetMachine) ∨
    ((s.run = .running ∨ s.run = .waitKey) ∧ s.hostReset = s) := by
  cases h : s.run <;> simp [State.hostReset, h]

theorem State.hostLoad_cases (s : State) (l : List Byte) :
    (s.run = .stopped ∧ s.hostLoad l = s.loadProgram l) ∨ (s.run ≠ .stopped ∧ s.hostLoad l = s) := by
  cases h : s.run <;> simp [State.hostLoad, h]

theorem State.hostRun_cases (s : State) :
    (s.run = .stopped ∧ s.hostRun = (s.setCancel false).setRun .running) ∨ (s.run ≠ .stopped ∧ s.hostRun = s) := by
  cases h : s.run <;> simp [State.hostRun, h]

@[simp] theorem State.resetMachine_mem (s : State) :
    s.resetMachine.mem = Memory.writeBytes s.mem Config.fontBase Config.font := by
  rw [State.resetMachine]
@[simp] theorem State.resetMachine_fb (s : State) : s.resetMachine.fb = Screen.blank := rfl
@[simp] theorem State.resetMachine_key (s : State) : s.resetMachine.key = s.key := rfl
@[simp] theorem State.resetMachine_run (s : State) : s.resetMachine.run = .stopped := rfl
@[simp] theorem State.resetMachine_randCount (s : State) : s.resetMachine.randCount = s.randCount := rfl
@[simp] theorem State.resetMachine_fbUpdates (s : State) :
    s.resetMachine.fbUpdates = if s.fb = Screen.blank then s.fbUpdates else s.fbUpdates + 1 := rfl
@[simp] theorem State.resetMachine_inputs (s : State) : s.resetMachine.inputs = s.inputs := rfl

/-- The instruction cycle is one of three: a bounds fault of the fetch, a decode fault, or exec of the decoded
instruction at a PC a word can be fetched from (spec 40 R80). -/
theorem State.instructionCycle_cases (s : State) :
    (4096 < s.pc.toNat + 2 ∧ s.instructionCycle = .next (s.raise ⟨.memBounds, BitVec.ofNat 16 (max s.pc.toNat 4096)⟩)) ∨
    (s.pc.toNat ≤ 0xFFE ∧ (∃ e, decodeWord s.fetchedWord = .error e) ∧
      s.instructionCycle = .next (s.raise ⟨.decode, s.fetchedWord⟩)) ∨
    (s.pc.toNat ≤ 0xFFE ∧ ∃ i, decodeWord s.fetchedWord = .ok i ∧ s.instructionCycle = exec i s) := by
  unfold State.instructionCycle State.fetch
  cases hb : boundsCheck s.pc 2 with
  | some t =>
    obtain ⟨-, h, rfl⟩ := boundsCheck_eq_some.mp hb
    exact .inl ⟨h, rfl⟩
  | none =>
    have hp : s.pc.toNat ≤ 0xFFE := by
      rcases boundsCheck_eq_none.mp hb with h | h <;> omega
    cases hd : decodeWord s.fetchedWord with
    | error e => exact .inr (.inl ⟨hp, ⟨e, rfl⟩, by simp [hd]⟩)
    | ok i => exact .inr (.inr ⟨hp, i, rfl, by simp [hd]⟩)

/-- The interpreter's step: nothing outside RUNNING, the stop of a cancelled run, or an instruction cycle. -/
theorem State.interpreterStep_cases (s : State) :
    (s.run ≠ .running ∧ s.interpreterStep = .next s) ∨
    (s.run = .running ∧ s.cancel = true ∧ s.interpreterStep = .next (s.setRun .stopped)) ∨
    (s.run = .running ∧ s.cancel = false ∧ s.interpreterStep = s.instructionCycle) := by
  cases h : s.run <;> cases hc : s.cancel <;> simp [State.interpreterStep, h, hc]

/-- A transition of the machine: the cancelled key wait, else the interpreter's step, else the first event. -/
theorem State.transition_cases (s : State) :
    (s.run = .waitKey ∧ s.cancel = true ∧ s.transition = .next s.cancelKeyWait) ∨
    (s.inputs = [] ∧ s.transition = s.interpreterStep) ∨
    (∃ e rest, s.inputs = e :: rest ∧ s.transition = (s.setInputs rest).apply e) := by
  unfold State.transition
  by_cases h : s.keyWaitCancelled
  · refine .inl ?_
    simp only [State.keyWaitCancelled, Bool.and_eq_true, beq_iff_eq] at h
    simp [State.keyWaitCancelled, h]
  · rw [if_neg h]
    cases hi : s.inputs with
    | nil => exact .inr (.inl ⟨rfl, rfl⟩)
    | cons e rest => exact .inr (.inr ⟨e, rest, rfl, rfl⟩)

end Sys2Proof.Machine
end

