-- ==== Sys2Proof/Laws/Exec.lean ====
section
/-! SUPPORT. What a call and a return can do, each as its two cases. -/

namespace Sys2Proof.Machine

/-- A return pops into PC, or faults with no entry in use (spec 40 R82). -/
theorem execRet_cases {s t : State} (h : execRet s = .next t) :
    (∃ h : 0 < s.sp.val,
      t = ({ s with sp := ⟨s.sp.val - 1, by omega⟩ } : State).setPc s.stack[s.sp.val - 1]) ∨
    (s.sp.val = 0 ∧ t = s.raise ⟨.stackUnderflow, encode .ret⟩) := by
  unfold execRet at h
  split at h
  · rename_i w u hp
    obtain ⟨h', rfl, rfl⟩ := State.pop_eq_some.mp hp
    cases h
    exact .inl ⟨h', rfl⟩
  · rename_i hp
    cases h
    exact .inr ⟨State.pop_eq_none.mp hp, rfl⟩

/-- A call pushes PC + 2 and goes to NNN, or faults with sixteen entries in use (spec 40 R85). -/
theorem execCall_cases {nnn : Addr12} {s t : State} (h : execCall nnn s = .next t) :
    (∃ h : s.sp.val < 16,
      t = ({ s with stack := s.stack.set s.sp.val (s.pc + 2), sp := ⟨s.sp.val + 1, by omega⟩ } : State).setPc
        (zextAddr nnn)) ∨
    (s.sp.val = 16 ∧ t = s.raise ⟨.stackOverflow, encode (.call nnn)⟩) := by
  unfold execCall at h
  split at h
  · rename_i u hp
    obtain ⟨h', rfl⟩ := State.push_eq_some.mp hp
    cases h
    exact .inl ⟨h', rfl⟩
  · rename_i hp
    cases h
    exact .inr ⟨State.push_eq_none.mp hp, rfl⟩

end Sys2Proof.Machine
end

