-- ==== Sys2Proof/Laws/Frame.lean ====
section
/-! SUPPORT. The frame of a state update, and fault entry's. -/

namespace Sys2Proof.Machine

/-- A claim about every piece of state is its seventeen cases. -/
theorem Part.forall_iff {P : Part → Prop} : (∀ p, P p) ↔
    P .regs ∧ P .index ∧ P .pc ∧ P .stack ∧ P .delay ∧ P .sound ∧ P .memory ∧ P .screen ∧ P .dirty ∧ P .keys ∧
    P .keyWait ∧ P .run ∧ P .cancel ∧ P .faults ∧ P .rand ∧ P .updates ∧ P .inputs := by
  constructor
  · intro h; simp [h]
  · rintro h p; cases p <;> simp [h]

/-- Raising a fault is fault entry at the PC of the instruction (spec 60 R208). -/
theorem State.raise_faultsWith (s : State) (c : FaultCode) (info : Word) : FaultsWith c info s (s.raise ⟨c, info⟩) := by
  simp [FaultsWith, OnlyChanges, Part.forall_iff, AgreeOn]

/-- Either way to take the interpreter's step is that step from u, unless the cancelled key wait comes first. -/
theorem State.stepFrom_step {s u : State} (h : s.stepFrom u) (hk : s.keyWaitCancelled = false) :
    step s = u.interpreterStep := by
  rcases h with ⟨hi, rfl⟩ | ⟨rest, hi, rfl⟩ <;> simp [step, State.transition, hk, hi, State.apply]

/-- The state a step is taken from differs from the state before in the events to come alone. -/
theorem State.stepFrom_eq {s u : State} (h : s.stepFrom u) : ∃ l, u = s.setInputs l := by
  rcases h with ⟨-, rfl⟩ | ⟨rest, -, rfl⟩
  · exact ⟨u.inputs, rfl⟩
  · exact ⟨rest, rfl⟩

end Sys2Proof.Machine
end

