-- ==== Sys2Proof/Laws/PerInstr.lean ====
section
/-! SUPPORT. Per instruction: its word lies in its own row of the opcode map and is well formed (spec 30 R65). -/

namespace Sys2Proof.Laws

/-- The bits a row of mask F000 compares are the high nibble. -/
theorem and_F000 (w : Word) : w &&& 0xF000#16 = fieldOp w ++ 0#12 := by
  apply BitVec.eq_of_getLsbD_eq; intro j hj
  rw [BitVec.getLsbD_and, BitVec.getLsbD_append, fieldOp, BitVec.getLsbD_extractLsb']
  interval_cases j <;> simp

/-- The bits a row of mask F00F compares are the high and the low nibble. -/
theorem and_F00F (w : Word) : w &&& 0xF00F#16 = fieldOp w ++ 0#8 ++ fieldN w := by
  apply BitVec.eq_of_getLsbD_eq; intro j hj
  rw [BitVec.getLsbD_and, BitVec.getLsbD_append, BitVec.getLsbD_append, fieldOp, fieldN, BitVec.getLsbD_extractLsb',
    BitVec.getLsbD_extractLsb']
  interval_cases j <;> simp

/-- The bits a row of mask F0FF compares are the high nibble and the low byte. -/
theorem and_F0FF (w : Word) : w &&& 0xF0FF#16 = fieldOp w ++ 0#4 ++ fieldKK w := by
  apply BitVec.eq_of_getLsbD_eq; intro j hj
  rw [BitVec.getLsbD_and, BitVec.getLsbD_append, BitVec.getLsbD_append, fieldOp, fieldKK, BitVec.getLsbD_extractLsb',
    BitVec.getLsbD_extractLsb']
  interval_cases j <;> simp

/-- A row of mask F000 compares the high nibble. -/
theorem matches_F000 (v w : Word) : (⟨v, 0xF000⟩ : OpcodeRow).matches w = (fieldOp w ++ 0#12 == v) :=
  congrArg (· == v) (and_F000 w)

/-- A row of mask F00F compares the high and the low nibble. -/
theorem matches_F00F (v w : Word) : (⟨v, 0xF00F⟩ : OpcodeRow).matches w = (fieldOp w ++ 0#8 ++ fieldN w == v) :=
  congrArg (· == v) (and_F00F w)

/-- A row of mask F0FF compares the high nibble and the low byte. -/
theorem matches_F0FF (v w : Word) : (⟨v, 0xF0FF⟩ : OpcodeRow).matches w = (fieldOp w ++ 0#4 ++ fieldKK w == v) :=
  congrArg (· == v) (and_F0FF w)

/-- The word of the instruction matches its row, and its row is one of the map. -/
def EncodingRow.Statement (i : Instr) : Prop :=
  i.row.matches (encode i) = true ∧ i.row ∈ opcodeMap

theorem EncodingRow.cls : EncodingRow.Statement (.cls) :=
  ⟨by decide, by decide⟩

theorem EncodingRow.ret : EncodingRow.Statement (.ret) :=
  ⟨by decide, by decide⟩

theorem EncodingRow.jp (nnn : Addr12) : EncodingRow.Statement (.jp nnn) :=
  ⟨by rw [Instr.row, encode, matches_F000, fieldOp_fmtA]; rfl, by rw [Instr.row]; decide⟩

theorem EncodingRow.jpV0 (nnn : Addr12) : EncodingRow.Statement (.jpV0 nnn) :=
  ⟨by rw [Instr.row, encode, matches_F000, fieldOp_fmtA]; rfl, by rw [Instr.row]; decide⟩

theorem EncodingRow.call (nnn : Addr12) : EncodingRow.Statement (.call nnn) :=
  ⟨by rw [Instr.row, encode, matches_F000, fieldOp_fmtA]; rfl, by rw [Instr.row]; decide⟩

theorem EncodingRow.seImm (x : Nibble) (kk : Byte) : EncodingRow.Statement (.seImm x kk) :=
  ⟨by rw [Instr.row, encode, matches_F000, fieldOp_fmtK]; rfl, by rw [Instr.row]; decide⟩

theorem EncodingRow.sneImm (x : Nibble) (kk : Byte) : EncodingRow.Statement (.sneImm x kk) :=
  ⟨by rw [Instr.row, encode, matches_F000, fieldOp_fmtK]; rfl, by rw [Instr.row]; decide⟩

theorem EncodingRow.seReg (x y d : Nibble) : EncodingRow.Statement (.seReg x y d) :=
  ⟨by rw [Instr.row, encode, matches_F000, fieldOp_fmtR]; rfl, by rw [Instr.row]; decide⟩

theorem EncodingRow.sneReg (x y d : Nibble) : EncodingRow.Statement (.sneReg x y d) :=
  ⟨by rw [Instr.row, encode, matches_F000, fieldOp_fmtR]; rfl, by rw [Instr.row]; decide⟩

theorem EncodingRow.ldImm (x : Nibble) (kk : Byte) : EncodingRow.Statement (.ldImm x kk) :=
  ⟨by rw [Instr.row, encode, matches_F000, fieldOp_fmtK]; rfl, by rw [Instr.row]; decide⟩

theorem EncodingRow.addImm (x : Nibble) (kk : Byte) : EncodingRow.Statement (.addImm x kk) :=
  ⟨by rw [Instr.row, encode, matches_F000, fieldOp_fmtK]; rfl, by rw [Instr.row]; decide⟩

theorem EncodingRow.ldI (nnn : Addr12) : EncodingRow.Statement (.ldI nnn) :=
  ⟨by rw [Instr.row, encode, matches_F000, fieldOp_fmtA]; rfl, by rw [Instr.row]; decide⟩

theorem EncodingRow.rnd (x : Nibble) (kk : Byte) : EncodingRow.Statement (.rnd x kk) :=
  ⟨by rw [Instr.row, encode, matches_F000, fieldOp_fmtK]; rfl, by rw [Instr.row]; decide⟩

theorem EncodingRow.drw (x y n : Nibble) : EncodingRow.Statement (.drw x y n) :=
  ⟨by rw [Instr.row, encode, matches_F000, fieldOp_fmtR]; rfl, by rw [Instr.row]; decide⟩

theorem EncodingRow.ldReg (x y : Nibble) : EncodingRow.Statement (.ldReg x y) :=
  ⟨by rw [Instr.row, encode, matches_F00F, fieldOp_fmtR, fieldN_fmtR]; rfl, by rw [Instr.row]; decide⟩

theorem EncodingRow.orReg (x y : Nibble) : EncodingRow.Statement (.orReg x y) :=
  ⟨by rw [Instr.row, encode, matches_F00F, fieldOp_fmtR, fieldN_fmtR]; rfl, by rw [Instr.row]; decide⟩

theorem EncodingRow.andReg (x y : Nibble) : EncodingRow.Statement (.andReg x y) :=
  ⟨by rw [Instr.row, encode, matches_F00F, fieldOp_fmtR, fieldN_fmtR]; rfl, by rw [Instr.row]; decide⟩

theorem EncodingRow.xorReg (x y : Nibble) : EncodingRow.Statement (.xorReg x y) :=
  ⟨by rw [Instr.row, encode, matches_F00F, fieldOp_fmtR, fieldN_fmtR]; rfl, by rw [Instr.row]; decide⟩

theorem EncodingRow.addReg (x y : Nibble) : EncodingRow.Statement (.addReg x y) :=
  ⟨by rw [Instr.row, encode, matches_F00F, fieldOp_fmtR, fieldN_fmtR]; rfl, by rw [Instr.row]; decide⟩

theorem EncodingRow.subReg (x y : Nibble) : EncodingRow.Statement (.subReg x y) :=
  ⟨by rw [Instr.row, encode, matches_F00F, fieldOp_fmtR, fieldN_fmtR]; rfl, by rw [Instr.row]; decide⟩

theorem EncodingRow.shr (x y : Nibble) : EncodingRow.Statement (.shr x y) :=
  ⟨by rw [Instr.row, encode, matches_F00F, fieldOp_fmtR, fieldN_fmtR]; rfl, by rw [Instr.row]; decide⟩

theorem EncodingRow.subnReg (x y : Nibble) : EncodingRow.Statement (.subnReg x y) :=
  ⟨by rw [Instr.row, encode, matches_F00F, fieldOp_fmtR, fieldN_fmtR]; rfl, by rw [Instr.row]; decide⟩

theorem EncodingRow.shl (x y : Nibble) : EncodingRow.Statement (.shl x y) :=
  ⟨by rw [Instr.row, encode, matches_F00F, fieldOp_fmtR, fieldN_fmtR]; rfl, by rw [Instr.row]; decide⟩

theorem EncodingRow.skp (x : Nibble) : EncodingRow.Statement (.skp x) :=
  ⟨by rw [Instr.row, encode, matches_F0FF, fieldOp_fmtK, fieldKK_fmtK]; rfl, by rw [Instr.row]; decide⟩

theorem EncodingRow.sknp (x : Nibble) : EncodingRow.Statement (.sknp x) :=
  ⟨by rw [Instr.row, encode, matches_F0FF, fieldOp_fmtK, fieldKK_fmtK]; rfl, by rw [Instr.row]; decide⟩

theorem EncodingRow.ldVDt (x : Nibble) : EncodingRow.Statement (.ldVDt x) :=
  ⟨by rw [Instr.row, encode, matches_F0FF, fieldOp_fmtK, fieldKK_fmtK]; rfl, by rw [Instr.row]; decide⟩

theorem EncodingRow.ldVKey (x : Nibble) : EncodingRow.Statement (.ldVKey x) :=
  ⟨by rw [Instr.row, encode, matches_F0FF, fieldOp_fmtK, fieldKK_fmtK]; rfl, by rw [Instr.row]; decide⟩

theorem EncodingRow.ldDtV (x : Nibble) : EncodingRow.Statement (.ldDtV x) :=
  ⟨by rw [Instr.row, encode, matches_F0FF, fieldOp_fmtK, fieldKK_fmtK]; rfl, by rw [Instr.row]; decide⟩

theorem EncodingRow.ldStV (x : Nibble) : EncodingRow.Statement (.ldStV x) :=
  ⟨by rw [Instr.row, encode, matches_F0FF, fieldOp_fmtK, fieldKK_fmtK]; rfl, by rw [Instr.row]; decide⟩

theorem EncodingRow.addI (x : Nibble) : EncodingRow.Statement (.addI x) :=
  ⟨by rw [Instr.row, encode, matches_F0FF, fieldOp_fmtK, fieldKK_fmtK]; rfl, by rw [Instr.row]; decide⟩

theorem EncodingRow.ldFont (x : Nibble) : EncodingRow.Statement (.ldFont x) :=
  ⟨by rw [Instr.row, encode, matches_F0FF, fieldOp_fmtK, fieldKK_fmtK]; rfl, by rw [Instr.row]; decide⟩

theorem EncodingRow.bcd (x : Nibble) : EncodingRow.Statement (.bcd x) :=
  ⟨by rw [Instr.row, encode, matches_F0FF, fieldOp_fmtK, fieldKK_fmtK]; rfl, by rw [Instr.row]; decide⟩

theorem EncodingRow.store (x : Nibble) : EncodingRow.Statement (.store x) :=
  ⟨by rw [Instr.row, encode, matches_F0FF, fieldOp_fmtK, fieldKK_fmtK]; rfl, by rw [Instr.row]; decide⟩

theorem EncodingRow.load (x : Nibble) : EncodingRow.Statement (.load x) :=
  ⟨by rw [Instr.row, encode, matches_F0FF, fieldOp_fmtK, fieldKK_fmtK]; rfl, by rw [Instr.row]; decide⟩

end Sys2Proof.Laws
end

