-- ==== Sys2Proof/Tests/Slice0.lean ====
section
/-! SUPPORT. The model's own tests: the expected values are the spec's (T, E, K, L, W, A, S, F and H of
95_test_vectors.md, the words of 30 R65), and for each statement with hypotheses a state that meets them. -/

namespace Sys2Proof.Tests

open Sys2Proof Sys2Proof.Machine

/-! ### Helpers -/

/-- The answer is a next state with the property. -/
def ok (r : Result) (p : State → Bool) : Bool :=
  match r with
  | .next t => p t
  | .fault _ => false
  | .refused _ => false

/-- The start state of 95: after power_on, load, run. -/
def base : State := State.reset.hostRun

/-- The state with some registers set. -/
def regs (l : List (Nibble × Byte)) : State := l.foldl (fun s p => s.setV p.1 p.2) base

/-- One step that runs the word at PC. -/
def runWord (s : State) (w : Nat) : Result := step (s.withFetchWord 16 w)

/-- The state with some bytes of memory written. -/
def withBytes (s : State) (a : Nat) (l : List Byte) : State := s.setMem (Memory.writeBytes s.mem a l)

/-- A screen with one lit pixel. -/
def lit (x y : Nat) : Screen := Screen.toggle Screen.blank x y

/-- The fault registers of a state. -/
def faultIs (c : FaultCode) (info p : Word) (t : State) : Bool :=
  t.fault == c && t.faultInfo == info && t.faultPc == p && t.run == .faulted && t.pc == p

/-! ### Well-formedness: an ill-formed word for each class of 30 R66 is refused, and the rows are disjoint -/

theorem test_illFormed_zero : [0x0000, 0x00E1, 0x01E0, 0x00FF, 0x0FFF].all (fun w => !WellFormedWord w) = true := by decide

theorem test_illFormed_alu :
    [0x8128, 0x8129, 0x812A, 0x812B, 0x812C, 0x812D, 0x812F].all (fun w => !WellFormedWord w) = true := by decide

theorem test_illFormed_key : [0xE100, 0xE59F, 0xE5A0].all (fun w => !WellFormedWord w) = true := by decide

theorem test_illFormed_misc : [0xF100, 0xF075, 0xF085, 0xF030, 0xF1FF].all (fun w => !WellFormedWord w) = true := by decide

theorem test_illFormed_words_refused :
    decodeWord 0x00E1 = .error .illegalZero ∧ decodeWord 0x812F = .error .illegalAlu ∧
    decodeWord 0xE59F = .error .illegalKey ∧ decodeWord 0xF030 = .error .illegalMisc ∧
    decode [0x12] = .error .tooShort ∧ decodeTableWord 16 0x0000 = none := by decide

theorem test_rows_disjoint : opcodeMap.Pairwise (fun r q => r.disjoint q = true) := by decide

/-! ### Decoding: a word of the spec's encoding (30 R62, R65) for every constructor -/

theorem test_decode_control :
    decodeWord 0x00E0 = .ok .cls ∧ decodeWord 0x00EE = .ok .ret ∧ decodeWord 0x1FFF = .ok (.jp 0xFFF) ∧
    decodeWord 0xB210 = .ok (.jpV0 0x210) ∧ decodeWord 0x2ABC = .ok (.call 0xABC) ∧
    decodeWord 0x332A = .ok (.seImm 3 0x2A) ∧ decodeWord 0x432A = .ok (.sneImm 3 0x2A) ∧
    decodeWord 0x512F = .ok (.seReg 1 2 0xF) ∧ decodeWord 0x9120 = .ok (.sneReg 1 2 0) := by decide

theorem test_decode_const :
    decodeWord 0x6A7F = .ok (.ldImm 0xA 0x7F) ∧ decodeWord 0x71FF = .ok (.addImm 1 0xFF) ∧
    decodeWord 0xA2F0 = .ok (.ldI 0x2F0) ∧ decodeWord 0xC30F = .ok (.rnd 3 0x0F) ∧
    decodeWord 0xD012 = .ok (.drw 0 1 2) := by decide

theorem test_decode_alu :
    decodeWord 0x8120 = .ok (.ldReg 1 2) ∧ decodeWord 0x8121 = .ok (.orReg 1 2) ∧
    decodeWord 0x8122 = .ok (.andReg 1 2) ∧ decodeWord 0x8123 = .ok (.xorReg 1 2) ∧
    decodeWord 0x8124 = .ok (.addReg 1 2) ∧ decodeWord 0x8125 = .ok (.subReg 1 2) ∧
    decodeWord 0x81A6 = .ok (.shr 1 0xA) ∧ decodeWord 0x8127 = .ok (.subnReg 1 2) ∧
    decodeWord 0x810E = .ok (.shl 1 0) := by decide

theorem test_decode_key : decodeWord 0xE59E = .ok (.skp 5) ∧ decodeWord 0xE5A1 = .ok (.sknp 5) := by decide

theorem test_decode_fx :
    decodeWord 0xF307 = .ok (.ldVDt 3) ∧ decodeWord 0xF20A = .ok (.ldVKey 2) ∧ decodeWord 0xF015 = .ok (.ldDtV 0) ∧
    decodeWord 0xF018 = .ok (.ldStV 0) ∧ decodeWord 0xF11E = .ok (.addI 1) ∧ decodeWord 0xF429 = .ok (.ldFont 4) ∧
    decodeWord 0xF233 = .ok (.bcd 2) ∧ decodeWord 0xF255 = .ok (.store 2) ∧ decodeWord 0xF265 = .ok (.load 2) := by decide

theorem test_encode : encode (.call 0xABC) = 0x2ABC ∧ encode (.drw 0 1 2) = 0xD012 ∧ encode (.shl 0xF 0xF) = 0x8FFE ∧
    encodeBytes (.sknp 5) = [0xE5, 0xA1] := by decide

/-! ### One step, the values of 95_test_vectors.md -/

/-- K1, K2. -/
theorem test_cls : ok (runWord (base.setFb (lit 5 0)) 0x00E0)
    (fun t => t.fb == Screen.blank && t.fbUpdates == 1 && t.pc == 0x202) = true ∧
    ok (runWord base 0x00E0) (fun t => t.fbUpdates == 0 && t.pc == 0x202) = true := by decide

/-- K3, T10. -/
theorem test_ret :
    ok (runWord { base with sp := 2, stack := (base.stack.set 0 0x206).set 1 0x300 } 0x00EE)
      (fun t => t.sp == 1 && t.pc == 0x300 && t.stack[1] == 0x300) = true ∧
    ok (runWord base 0x00EE) (faultIs .stackUnderflow 0x00EE 0x200) = true := by decide

/-- K4. -/
theorem test_jp : ok (runWord base 0x1FFF) (fun t => t.pc == 0xFFF) = true := by decide

/-- E11, K7. -/
theorem test_jpV0 : ok (runWord (regs [(0, 2), (2, 0x50)]) 0xB210) (fun t => t.pc == 0x212) = true ∧
    ok (runWord (regs [(0, 0xFF)]) 0xBFFF) (fun t => t.pc == 0x10FE) = true := by decide

/-- K8, K9. -/
theorem test_call : ok (runWord base 0x2ABC) (fun t => t.sp == 1 && t.stack[0] == 0x202 && t.pc == 0xABC) = true ∧
    ok (runWord { base with sp := 16 } 0x2ABC) (fun t => faultIs .stackOverflow 0x2ABC 0x200 t && t.sp == 16) = true := by
  decide

/-- K11, K14. -/
theorem test_seImm : ok (runWord ((regs [(3, 0x2A)]).setPc 0x210) 0x332A) (fun t => t.pc == 0x214) = true ∧
    ok (runWord (base.setPc 0xFFE) 0x3000) (fun t => t.pc == 0x1002) = true := by decide

/-- K15, K16. -/
theorem test_sneImm : ok (runWord ((regs [(3, 0x2A)]).setPc 0x210) 0x432A) (fun t => t.pc == 0x212) = true ∧
    ok (runWord (base.setPc 0x210) 0x432A) (fun t => t.pc == 0x214) = true := by decide

/-- E9, K18. -/
theorem test_seReg : ok (runWord (regs [(1, 7), (2, 7)]) 0x512F) (fun t => t.pc == 0x204) = true ∧
    ok (runWord ((regs [(1, 7), (2, 8)]).setPc 0x300) 0x5120) (fun t => t.pc == 0x302) = true := by decide

/-- K20, K21. -/
theorem test_sneReg : ok (runWord ((regs [(1, 7), (2, 8)]).setPc 0x300) 0x9120) (fun t => t.pc == 0x304) = true ∧
    ok (runWord (regs [(1, 7)]) 0x9110) (fun t => t.pc == 0x202) = true := by decide

/-- L1, L2. -/
theorem test_ldImm : ok (runWord base 0x6A7F) (fun t => t.getV 0xA == 0x7F && t.pc == 0x202) = true ∧
    ok (runWord base 0x6F33) (fun t => t.getV 15 == 0x33) = true := by decide

/-- L3, L5. -/
theorem test_addImm : ok (runWord (regs [(1, 5), (15, 0x55)]) 0x71FF) (fun t => t.getV 1 == 4 && t.getV 15 == 0x55) = true ∧
    ok (runWord (regs [(15, 0xFE)]) 0x7F03) (fun t => t.getV 15 == 1) = true := by decide

/-- L7. -/
theorem test_ldI : ok (runWord base 0xAFFF) (fun t => t.i == 0xFFF && t.pc == 0x202) = true := by decide

/-- L10, whatever the free byte is: the mask FF gives the byte itself. -/
theorem test_rnd : ∃ t, exec (.rnd 3 0xFF) base = .next t ∧ t.getV 3 = base.rand ∧ t.randCount = 1 := by
  refine ⟨_, rfl, ?_, rfl⟩
  show Config.randByte 0 &&& 0xFF#8 = Config.randByte 0
  generalize Config.randByte 0 = b
  exact BitVec.and_allOnes

/-- W7: the second row and the columns past 63 are clipped. -/
theorem test_drw_clips : ok (runWord (withBytes ((regs [(0, 62), (1, 31)]).setI 0x300) 0x300 [0xFF, 0xFF]) 0xD012)
    (fun t => t.fb == Screen.toggle (lit 62 31) 63 31 && t.getV 15 == 0 && t.fbUpdates == 1) = true := by decide

/-- W3, W11. -/
theorem test_drw_collides :
    ok (runWord (withBytes ((base.setI 0x300).setFb (lit 0 0)) 0x300 [0xC0]) 0xD011)
      (fun t => t.fb == lit 1 0 && t.getV 15 == 1) = true ∧
    ok (runWord (base.setI 0xFFF) 0xD012) (faultIs .memBounds 0x1000 0x200) = true := by decide

/-- A1. -/
theorem test_ldReg : ok (runWord (regs [(1, 0x11), (2, 0xCD)]) 0x8120) (fun t => t.getV 1 == 0xCD) = true := by decide

/-- A2. -/
theorem test_orReg : ok (runWord (regs [(1, 0xF0), (2, 0x0F), (15, 0x55)]) 0x8121)
    (fun t => t.getV 1 == 0xFF && t.getV 15 == 0x55) = true := by decide

/-- A3. -/
theorem test_andReg : ok (runWord (regs [(1, 0xF0), (2, 0x3C)]) 0x8122) (fun t => t.getV 1 == 0x30) = true := by decide

/-- A4. -/
theorem test_xorReg : ok (runWord (regs [(1, 0xFF), (2, 0x0F)]) 0x8123) (fun t => t.getV 1 == 0xF0) = true := by decide

/-- A6, A9. -/
theorem test_addReg : ok (runWord (regs [(1, 0xFF), (2, 0xFF)]) 0x8124) (fun t => t.getV 1 == 0xFE && t.getV 15 == 1) = true ∧
    ok (runWord (regs [(15, 0xFF), (1, 1)]) 0x8F14) (fun t => t.getV 15 == 0 && t.getV 1 == 1) = true := by decide

/-- A10, T4. -/
theorem test_subReg : ok (runWord (regs [(1, 5), (2, 5)]) 0x8125) (fun t => t.getV 1 == 0 && t.getV 15 == 1) = true ∧
    ok (runWord (regs [(1, 1), (2, 2)]) 0x8125) (fun t => t.getV 1 == 0xFF && t.getV 15 == 0) = true := by decide

/-- E10, A15. -/
theorem test_shr : ok (runWord (regs [(1, 3), (0xA, 0xF0)]) 0x81A6)
      (fun t => t.getV 1 == 1 && t.getV 15 == 1 && t.getV 0xA == 0xF0) = true ∧
    ok (runWord (regs [(1, 0x80)]) 0x8106) (fun t => t.getV 1 == 0x40 && t.getV 15 == 0) = true := by decide

/-- A16, A17. -/
theorem test_subnReg : ok (runWord (regs [(1, 2), (2, 1)]) 0x8127) (fun t => t.getV 1 == 0xFF && t.getV 15 == 0) = true ∧
    ok (runWord (regs [(1, 1), (2, 2)]) 0x8127) (fun t => t.getV 1 == 1 && t.getV 15 == 1 && t.getV 2 == 2) = true := by
  decide

/-- A21, A22. -/
theorem test_shl : ok (runWord (regs [(1, 0xFF)]) 0x810E) (fun t => t.getV 1 == 0xFE && t.getV 15 == 1) = true ∧
    ok (runWord (regs [(15, 0x81)]) 0x8FFE) (fun t => t.getV 15 == 2) = true := by decide

/-- S7, S5. -/
theorem test_skp : ok (runWord ((regs [(5, 0x0F)]).setKey 15 true) 0xE59E) (fun t => t.pc == 0x204) = true ∧
    ok (runWord (regs [(5, 0x10)]) 0xE59E) (faultIs .keyRange 0x10 0x200) = true := by decide

/-- S3, S6. -/
theorem test_sknp : ok (runWord ((regs [(5, 7)]).setPc 0x220) 0xE5A1) (fun t => t.pc == 0x224) = true ∧
    ok (runWord (regs [(5, 0xFF)]) 0xE5A1) (faultIs .keyRange 0xFF 0x200) = true := by decide

/-- F1. -/
theorem test_ldVDt : ok (runWord (base.setDt 0x1E) 0xF307) (fun t => t.getV 3 == 0x1E && t.dt == 0x1E) = true := by decide

/-- F22, F29. -/
theorem test_ldVKey : ok (runWord (base.setKey 3 true) 0xF00A)
      (fun t => t.run == .waitKey && t.kwait && t.kreg == 0 && t.pc == 0x200) = true ∧
    ok (({ base with run := .waitKey, kwait := true, kreg := 15 } : State).apply (.keySet 0xC true))
      (fun t => t.getV 15 == 0xC && t.run == .running && t.pc == 0x202 && t.getKey 0xC) = true := by decide

/-- F2. -/
theorem test_ldDtV : ok (runWord (regs [(0, 0x3C)]) 0xF015) (fun t => t.dt == 0x3C && t.st == 0) = true := by decide

/-- F3. -/
theorem test_ldStV : ok (runWord (regs [(0, 2)]) 0xF018) (fun t => t.st == 2 && t.ports.tone && t.dt == 0) = true := by decide

/-- F6, F7. -/
theorem test_addI : ok (runWord ((regs [(1, 1)]).setI 0xFFF) 0xF11E) (fun t => t.i == 0x1000 && t.getV 15 == 0) = true ∧
    ok (runWord ((regs [(1, 1)]).setI 0xFFFF) 0xF11E) (fun t => t.i == 0) = true := by decide

/-- F8, F9. -/
theorem test_ldFont : ok (runWord (regs [(4, 0x0A)]) 0xF429) (fun t => t.i == 0x82) = true ∧
    ok (runWord (regs [(4, 0xFF)]) 0xF429) (fun t => t.i == 0x54B) = true := by decide

/-- F10, F13. -/
theorem test_bcd : ok (runWord ((regs [(2, 0xFE)]).setI 0x300) 0xF233)
      (fun t => Memory.readBytes t.mem 0x300 4 == [2, 5, 4, 0]) = true ∧
    ok (runWord ((regs [(2, 0xFE)]).setI 0xFFE) 0xF233)
      (fun t => faultIs .memBounds 0x1000 0x200 t && Memory.read t.mem 0xFFE == 0) = true := by decide

/-- F14, F18. -/
theorem test_store : ok (runWord ((regs [(0, 0x11), (1, 0x22), (2, 0x33)]).setI 0x400) 0xF255)
      (fun t => Memory.readBytes t.mem 0x400 4 == [0x11, 0x22, 0x33, 0] && t.i == 0x400) = true ∧
    ok (runWord ((regs [(0, 1)]).setI 0xFF1) 0xFF55)
      (fun t => faultIs .memBounds 0x1000 0x200 t && Memory.read t.mem 0xFF1 == 0) = true := by decide

/-- F20, F21. -/
theorem test_load : ok (runWord (base.setI 0x50) 0xF465)
      (fun t => [t.getV 0, t.getV 1, t.getV 2, t.getV 3, t.getV 4, t.getV 5] == [0xF0, 0x90, 0x90, 0x90, 0xF0, 0] &&
        t.i == 0x50) = true ∧
    ok (runWord (base.setI 0xFF1) 0xFF65) (faultIs .memBounds 0x1000 0x200) = true := by decide

/-! ### Fetch, events, host operations -/

/-- E1, E2, E3. -/
theorem test_fetch_edge :
    ok (step (withBytes (base.setPc 0xFFE) 0xFFE [0x12, 0x00])) (fun t => t.pc == 0x200) = true ∧
    ok (step (base.setPc 0xFFF)) (faultIs .memBounds 0x1000 0xFFF) = true ∧
    ok (step (base.setPc 0x1002)) (faultIs .memBounds 0x1002 0x1002) = true := by decide

/-- E4. -/
theorem test_decode_fault : ok (step base) (faultIs .decode 0 0x200) = true := by decide

/-- E12, H7. -/
theorem test_cancel_before_fetch :
    ok (step ((base.setPc 0xFFF).setCancel true)) (fun t => t.run == .stopped && t.fault == .none && t.pc == 0xFFF) = true := by
  decide

/-- F4, S8: the tick and the key of the same clock edge are applied first, and no strobe that is not asserted. -/
theorem test_strobe_order : (Strobes.mk false none true false false true).events = [.tickD, .step] ∧
    (Strobes.mk false (some (7, true)) false false false true).events = [.keySet 7 true, .step] ∧
    (Strobes.mk false none false true false false).events = [.tickS] ∧
    (Strobes.mk false none false false false false).events = [] := by decide

/-- E2, H7 taken as the event step: the answer is at the state without that event. -/
theorem test_step_event : ok (step ((base.setPc 0xFFF).setInputs [.step, .tickD]))
      (fun t => faultIs .memBounds 0x1000 0xFFF t && t.inputs == [.tickD]) = true ∧
    ok (step (((base.setPc 0x204).setCancel true).setInputs [.step]))
      (fun t => t.run == .stopped && t.pc == 0x204 && t.inputs == []) = true := by decide

/-- H6, with the byte count alone: a load of 3585 bytes. -/
theorem test_load_too_long :
    (State.reset.hostLoad (List.replicate 3585 0)).fault = .load ∧
    (State.reset.hostLoad (List.replicate 3585 0)).faultInfo = 0x0E01 ∧
    (State.reset.hostLoad (List.replicate 3585 0)).faultPc = 0x0200 := by
  have h : Config.progMax < (List.replicate 3585 (0 : Byte)).length := by rw [List.length_replicate]; decide
  have e : State.reset.hostLoad (List.replicate 3585 0) = State.reset.loadProgram (List.replicate 3585 0) := rfl
  rw [e, State.loadProgram, if_pos h, List.length_replicate]
  exact ⟨rfl, rfl, rfl⟩

/-- H12, H13. -/
theorem test_reset :
    ((State.reset.setFb (lit 9 0)).hostReset.fbUpdates = 1 ∧ (State.reset.setFb (lit 9 0)).hostReset.fb = Screen.blank) ∧
    (State.reset.setKey 4 true).hostReset.getKey 4 = true := by decide

/-- T12: period 2. -/
theorem test_timer : Timer.tick ⟨2, true, 1, 0⟩ 2 = (⟨2, true, 1, 2⟩, some 0) ∧
    Timer.tick ⟨2, true, 1, 4⟩ 5 = (⟨2, true, 1, 4⟩, none) ∧ Timer.tick ⟨2, true, 0, 0⟩ 9 = (⟨2, true, 0, 0⟩, none) := by
  decide

/-! ### Witnesses: for each statement with hypotheses, states and operands that meet them together -/

/-- A machine about to run `JP 0x200` at 0x200. -/
def parked : State := withBytes base 0x200 [0x12, 0x00]

theorem witness_StepRunsDecodedInstruction :
    ((withBytes (base.setPc 0xFFE) 0xFFE [0x12, 0x00]).cycles ∧
      (withBytes (base.setPc 0xFFE) 0xFFE [0x12, 0x00]).pc.toNat ≤ 0xFFE ∧
      decodeWord (withBytes (base.setPc 0xFFE) 0xFFE [0x12, 0x00]).fetchedWord = .ok (.jp 0x200)) ∧
    ((parked.setInputs [.step, .tickD]).run = .running ∧ (parked.setInputs [.step, .tickD]).cancel = false ∧
      (parked.setInputs [.step, .tickD]).inputs = .step :: [.tickD] ∧ (parked.setInputs [.step, .tickD]).pc.toNat ≤ 0xFFE ∧
      decodeWord (parked.setInputs [.step, .tickD]).fetchedWord = .ok (.jp 0x200)) := by
  refine ⟨⟨⟨?_, ?_, ?_⟩, ?_, ?_⟩, ?_, ?_, ?_, ?_, ?_⟩ <;> decide

theorem witness_PlacedWordIsFetchedAndRun :
    (Memory.wf State.reset.mem = true ∧ decodeTableWord 16 0x00E0 = some .cls) ∧
    (Memory.wf (base.setPc 0xFFF).mem = true ∧ decodeTableWord 16 0xFF65 = some (.load 15)) := by decide

theorem witness_FetchIsBoundedAndBigEndian :
    4096 ≤ (base.setPc 0x1000).pc.toNat ∧ (base.setPc 0xFFF).pc = 0xFFF ∧ (base.setPc 0xFFE).pc.toNat ≤ 0xFFE ∧
    decodeWord ((0x12 : Byte) ++ (0x34 : Byte)) = .ok (.jp 0x234) ∧
    decodeWord ((0x00 : Byte) ++ (0x00 : Byte)) = .error .illegalZero := by decide

theorem witness_MemBoundsFaults :
    ((base.setPc 0xFFF).stepFrom (base.setPc 0xFFF) ∧
      ((base.setPc 0xFFF).setInputs [.step, .tickD]).stepFrom ((base.setPc 0xFFF).setInputs [.tickD]) ∧
      ((base.setPc 0xFFF).setInputs [.tickD]).run = .running ∧ ((base.setPc 0xFFF).setInputs [.tickD]).cancel = false ∧
      0xFFE < ((base.setPc 0xFFF).setInputs [.tickD]).pc.toNat) ∧
    (0 < (2 : Nibble).toNat ∧ 4096 < (base.setI 0xFFF).i.toNat + (2 : Nibble).toNat) ∧
    4096 ≤ (base.setI 0xFFE).i.toNat + 2 ∧ 4096 ≤ (base.setI 0xFFF).i.toNat + (1 : Nibble).toNat := by
  refine ⟨⟨.inl ⟨rfl, rfl⟩, .inr ⟨_, rfl, rfl⟩, ?_, ?_, ?_⟩, ?_, ?_, ?_⟩ <;> decide

theorem witness_DecodeFaultCarriesWord :
    base.stepFrom base ∧ (base.setInputs [.step]).stepFrom (base.setInputs []) ∧ base.run = .running ∧
    base.cancel = false ∧ base.pc.toNat ≤ 0xFFE ∧ decodeWord base.fetchedWord = .error .illegalZero := by
  refine ⟨.inl ⟨rfl, rfl⟩, .inr ⟨_, rfl, rfl⟩, ?_, ?_, ?_, ?_⟩ <;> decide

theorem witness_IllegalWordsAreTheFourClasses :
    decodeWord 0x00E1 = .error .illegalZero ∧ decodeWord 0x8008 = .error .illegalAlu ∧
    decodeWord 0xE0A0 = .error .illegalKey ∧ decodeWord 0xFF66 = .error .illegalMisc := by decide

theorem witness_OpcodeMapDecidesDecoding :
    decodeWord 0x812E = .ok (.shl 1 2) ∧ (0x812E#16 &&& (Instr.shl 1 2).row.mask = (Instr.shl 1 2).row.value) := by decide

theorem witness_DecodeAndEncodeAgree : decodeWord 0x9FFF = .ok (.sneReg 0xF 0xF 0xF) := by decide

theorem witness_SequentialInstructionsAdvanceByTwo :
    sequential (.ldI 0x300) = true ∧ base.run ≠ .faulted ∧ exec (.ldI 0x300) base = .next (base.setI 0x300).advance ∧
    (base.setI 0x300).advance.run ≠ .faulted := ⟨rfl, by decide, rfl, by decide⟩

theorem witness_FaultEntryIsPrecise :
    base.run ≠ .faulted ∧ exec .ret base = .next (base.raise ⟨.stackUnderflow, 0x00EE⟩) ∧
    (base.raise ⟨.stackUnderflow, 0x00EE⟩).run = .faulted := ⟨by decide, rfl, rfl⟩

theorem witness_ClearScreenResult :
    (∃ u v, Screen.at (base.setFb (lit 63 31)).fb u v = true) ∧ (∀ u v, Screen.at base.fb u v = false) :=
  ⟨⟨63, 31, by decide⟩, fun u v => by
    unfold Screen.at Screen.rowAt; split <;> simp [base, State.hostRun, State.reset, State.setRun, State.setCancel]⟩

theorem witness_ReturnResult :
    0 < ({ base with sp := 1 } : State).sp.val ∧ 0 < ({ base with sp := 16 } : State).sp.val ∧ base.sp.val = 0 := by decide

theorem witness_CallResult :
    base.sp.val < 16 ∧ ({ base with sp := 15 } : State).sp.val < 16 ∧ ({ base with sp := 16 } : State).sp.val = 16 := by decide

theorem witness_CallThenReturnComesBack : ({ base with sp := 15 } : State).sp.val < 16 := by decide

/-- Both meetings of a draw's bounds: no byte at any I, and the last byte at 0xFFF. -/
theorem witness_DrawResult :
    ((0 : Nibble).toNat = 0 ∨ (base.setI 0xFFFF).i.toNat + (0 : Nibble).toNat ≤ 4096) ∧
    ((1 : Nibble).toNat = 0 ∨ (base.setI 0xFFF).i.toNat + (1 : Nibble).toNat ≤ 4096) := by decide

/-- A draw that sets pixels, one that collides, one that covers nothing. -/
theorem witness_DrawResult_clauses :
    (covers 0 0 [0x80] 0 0 = true ∧ Screen.at (lit 0 0) 0 0 = true) ∧
    (∀ u v, covers 0 0 [0x80] u v = true → Screen.at Screen.blank u v = false) ∧
    (∀ u v, covers 5 5 [] u v = false) ∧ covers 62 31 [0x40, 0xFF] 63 31 = true ∧ covers 62 31 [0x40, 0xFF] 0 0 = false := by
  refine ⟨by decide, fun u v _ => ?_, fun u v => ?_, by decide, by decide⟩
  · unfold Screen.at Screen.rowAt Screen.blank; split <;> simp
  · unfold covers; simp

theorem witness_AddResult : (14 : Nibble) ≠ 15 := by decide

theorem witness_SubtractResults : (0 : Nibble) ≠ 15 := by decide

theorem witness_ShiftResults : (14 : Nibble) ≠ 15 := by decide

theorem witness_KeySkipResults :
    ((regs [(5, 15)]).getV 5).toNat = (15 : Nibble).toNat ∧ 15 < ((regs [(5, 16)]).getV 5).toNat := by decide

theorem witness_KeyWaitResult : base.getKey 15 = false := by decide

theorem witness_BcdResult : Memory.wf (base.setI 0xFFD).mem = true ∧ (base.setI 0xFFD).i.toNat + 2 < 4096 ∧
    4096 ≤ (base.setI 0xFFE).i.toNat + 2 := by decide

theorem witness_BlockStoreResult :
    Memory.wf (base.setI 0xFF0).mem = true ∧ (base.setI 0xFF0).i.toNat + (15 : Nibble).toNat < 4096 ∧
    4096 ≤ (base.setI 0xFF1).i.toNat + (15 : Nibble).toNat := by decide

theorem witness_BlockLoadResult : (base.setI 0xFFF).i.toNat + (0 : Nibble).toNat < 4096 ∧
    4096 ≤ (base.setI 0x1000).i.toNat + (0 : Nibble).toNat := by decide

theorem witness_StoreThenLoadRestoresRegisters :
    Memory.wf (base.setI 0xFF0).mem = true ∧ (base.setI 0xFF0).i.toNat + (15 : Nibble).toNat < 4096 := by decide

theorem witness_StoredWordIsFetchedNext :
    Memory.wf (base.setI 0x202).mem = true ∧ 1 ≤ (1 : Nibble).toNat ∧ (base.setI 0x202).i = (base.setI 0x202).pc + 2 ∧
    (base.setI 0x202).i.toNat + (1 : Nibble).toNat < 4096 := by decide

/-- A waiting machine; a fulfilling press, and a press of a key already held. -/
theorem witness_KeySetResult :
    (({ base with kwait := true } : State).getKey 15 = false ∧ true = true ∧ ({ base with kwait := true } : State).kwait = true) ∧
    ¬ ((base.setKey 3 true).getKey 3 = false ∧ true = true ∧ (base.setKey 3 true).kwait = true) := by decide

theorem witness_CancelStopsTheMachine :
    ((base.setCancel true).stepFrom (base.setCancel true) ∧
      ((base.setCancel true).setInputs [.step, .tickS]).stepFrom ((base.setCancel true).setInputs [.tickS]) ∧
      (base.setCancel true).run = .running ∧ (base.setCancel true).cancel = true) ∧
    (({ base with run := .waitKey, cancel := true } : State).run = .waitKey ∧
      ({ base with run := .waitKey, cancel := true } : State).cancel = true) ∧
    (base.setCancelFlag.stepFrom base.setCancelFlag ∧ (base.run = .running ∨ base.run = .waitKey)) ∧
    ((((base.setRun .waitKey).setInputs [.step]).setCancelFlag).stepFrom (base.setRun .waitKey).setCancelFlag ∧
      ((base.setRun .waitKey).setInputs [.step]).run = .waitKey) :=
  ⟨⟨.inl ⟨rfl, rfl⟩, .inr ⟨_, rfl, rfl⟩, rfl, rfl⟩, ⟨rfl, rfl⟩, ⟨.inl ⟨rfl, rfl⟩, .inl rfl⟩, .inr ⟨_, rfl, rfl⟩, rfl⟩

/-- Both run states that accept a reset; a lit and a blank screen. -/
theorem witness_ResetResult :
    (Memory.wf State.reset.mem = true ∧ (State.reset.run = .stopped ∨ State.reset.run = .faulted)) ∧
    (base.setRun .faulted).run = .faulted ∧ Screen.at (State.reset.setFb (lit 0 0)).fb 0 0 = true ∧
    (∀ u v, Screen.at State.reset.fb u v = false) := by
  refine ⟨by decide, rfl, by decide, fun u v => ?_⟩
  unfold Screen.at Screen.rowAt; split <;> simp [State.reset]

theorem witness_ResetIsIdempotent : Memory.wf State.reset.mem = true := rfl

/-- A load that just fits and one that just does not. -/
theorem witness_LoadResult :
    Memory.wf State.reset.mem = true ∧ State.reset.run = .stopped ∧ (List.replicate 3584 (0 : Byte)).length ≤ 3584 ∧
    3584 < (List.replicate 3585 (0 : Byte)).length :=
  ⟨rfl, rfl, by rw [List.length_replicate], by rw [List.length_replicate]; omega⟩

theorem witness_RunResult : State.reset.run = .stopped := rfl

theorem witness_MisplacedHostOperationsAreIgnored :
    (base.run = .running ∨ base.run = .waitKey) ∧ (base.setRun .faulted).run ≠ .stopped ∧ (base.setRun .waitKey).run ≠ .running := by
  decide

theorem witness_ResetAndLoadCommute :
    Memory.wf State.reset.mem = true ∧ State.reset.run = .stopped ∧ (List.replicate 3584 (0 : Byte)).length ≤ 3584 :=
  ⟨rfl, rfl, by rw [List.length_replicate]⟩

theorem witness_EventsApplyInOrder :
    ((base.setInputs [.tickD, .step]).inputs = .tickD :: [.step] ∧
      ¬ ((base.setInputs [.tickD, .step]).run = .waitKey ∧ (base.setInputs [.tickD, .step]).cancel = true)) ∧
    (Strobes.mk true none true false false true).por = true ∧ (Strobes.mk false none true false false true).por = false := by
  decide

theorem witness_PortsShowTheState :
    State.reset.run = .stopped ∧ base.run = .running ∧ (base.setRun .waitKey).run = .waitKey ∧
    (base.raise ⟨.decode, 0⟩).run = .faulted ∧ base.fault = .none ∧
    [FaultCode.decode, .stackOverflow, .stackUnderflow, .memBounds, .keyRange, .load, .config].all
      (fun c => (base.raise ⟨c, 0⟩).fault == c) = true := by decide

/-- A timer at zero, one tick too early, just due, the last repeat, and periods 0 and 1. -/
theorem witness_GenericTimerTicks :
    (((⟨2, true, 0, 0⟩ : Timer).remaining = 0 ∨ 9 < (⟨2, true, 0, 0⟩ : Timer).last + 2)) ∧
    ((⟨2, true, 3, 4⟩ : Timer).remaining = 0 ∨ 5 < (⟨2, true, 3, 4⟩ : Timer).last + (⟨2, true, 3, 4⟩ : Timer).period) ∧
    (0 < (⟨2, true, 1, 4⟩ : Timer).remaining ∧ (⟨2, true, 1, 4⟩ : Timer).last + (⟨2, true, 1, 4⟩ : Timer).period ≤ 6) ∧
    (0 : Int) ≤ 0 ∧ (0 : Int) < 1 := by decide

/-- Instructions that are and are not the named writers, with their next states. -/
theorem witness_OnlyStoresWriteMemoryOnlyDrawsTheScreen :
    exec (.ldI 0x300) base = .next (base.setI 0x300).advance ∧ (∀ x, Instr.ldI 0x300 ≠ .bcd x ∧ Instr.ldI 0x300 ≠ .store x) ∧
    (Instr.ldI 0x300 ≠ .cls ∧ ∀ x y n, Instr.ldI 0x300 ≠ .drw x y n) :=
  ⟨rfl, by simp, by simp⟩

theorem witness_SpecialRegistersHaveTheirOwnWriters :
    exec (.ldImm 1 2) base = .next (base.setV 1 2).advance ∧
    (∀ nnn x, Instr.ldImm 1 2 ≠ .ldI nnn ∧ Instr.ldImm 1 2 ≠ .addI x ∧ Instr.ldImm 1 2 ≠ .ldFont x) ∧
    (Instr.ldImm 1 2 ≠ .ret ∧ ∀ nnn, Instr.ldImm 1 2 ≠ .call nnn) ∧ (∀ x, Instr.ldImm 1 2 ≠ .ldDtV x) ∧
    (∀ x, Instr.ldImm 1 2 ≠ .ldStV x) := ⟨rfl, by simp, by simp, by simp, by simp⟩

theorem witness_RegistersChangeOnlyAsNamed :
    exec (.addImm 14 1) base = .next (base.setV 14 (base.getV 14 + 1)).advance ∧ writesReg (.addImm 14 1) 15 = false :=
  ⟨rfl, rfl⟩

theorem witness_ProgramCannotReachHostState :
    exec (.ldVKey 2) base = .next (((base.setKreg 2).setKwait true).setRun .waitKey) ∧
    exec .ret base = .next (base.raise ⟨.stackUnderflow, 0x00EE⟩) := ⟨rfl, rfl⟩

theorem witness_ProgramCannotReadSoundTimerOrFaults : exec (.ldVDt 1) base = .next (base.setV 1 base.dt).advance := rfl

theorem witness_JumpToSelfChangesNothing :
    parked.stepFrom parked ∧ (parked.setInputs [.step, .tickD]).stepFrom (parked.setInputs [.tickD]) ∧
    parked.run = .running ∧ parked.cancel = false ∧ parked.pc.toNat = (0x200 : Addr12).toNat ∧
    (0x200 : Addr12).toNat ≤ 0xFFE ∧ decodeWord parked.fetchedWord = .ok (.jp 0x200) := by
  refine ⟨.inl ⟨rfl, rfl⟩, .inr ⟨_, rfl, rfl⟩, ?_, ?_, ?_, ?_, ?_⟩ <;> decide

/-- An answer that is this next state. -/
theorem eq_next_of_ok {r : Result} {s : State} (h : ok r (fun t => t == s) = true) : r = .next s := by
  cases r with
  | next t => simp only [ok, beq_iff_eq] at h; rw [h]
  | fault f => cases h
  | refused f => cases h

theorem witness_StepKeepsMemoryCanonical : Memory.wf parked.mem = true ∧ step parked = .next parked :=
  ⟨by decide, eq_next_of_ok (by decide)⟩

/-- A machine in the invariant that takes a step. -/
theorem witness_StepKeepsTheInvariant : parked.Inv ∧ step parked = .next parked := by
  refine ⟨⟨⟨?_, ?_, ?_, ?_, ?_⟩, ⟨?_, ?_, ?_⟩, ?_⟩, eq_next_of_ok ?_⟩ <;> decide

end Sys2Proof.Tests
end

/-! SUPPORT and PROOFS. The statements of 00_scope.md: a step as exec of the instruction at PC, the word placed where the
fetch reads, the order of events, the output ports. -/

namespace Sys2Proof.Machine

/-! ### A step as exec of the decoded instruction (spec 00 R4, 40 R80) -/

theorem State.keyWaitCancelled_of_cancel {s : State} (hc : s.cancel = false) : s.keyWaitCancelled = false := by
  simp [State.keyWaitCancelled, hc]

/-- A word that decodes, at a PC it can be fetched from, leaves only the third case of the cycle. -/
theorem State.instructionCycle_of_decode {s : State} {i : Instr} (hp : s.pc.toNat ≤ 0xFFE)
    (hd : decodeWord s.fetchedWord = .ok i) : s.instructionCycle = exec i s := by
  rcases s.instructionCycle_cases with ⟨hb, -⟩ | ⟨-, ⟨e, he⟩, -⟩ | ⟨-, j, hj, h⟩
  · omega
  · cases hd.symm.trans he
  · cases hd.symm.trans hj
    exact h

theorem State.interpreterStep_of_running {s : State} (hr : s.run = .running) (hc : s.cancel = false) :
    s.interpreterStep = s.instructionCycle := by
  rcases s.interpreterStep_cases with ⟨hn, -⟩ | ⟨-, ht, -⟩ | ⟨-, -, h⟩
  · exact absurd hr hn
  · cases hc.symm.trans ht
  · exact h

/-- Either way a step is taken from u, it is exec of the instruction decoded there. -/
theorem State.step_eq_exec {s u : State} {i : Instr} (hs : s.stepFrom u) (hr : u.run = .running)
    (hc : u.cancel = false) (hp : u.pc.toNat ≤ 0xFFE) (hd : decodeWord u.fetchedWord = .ok i) :
    step s = exec i u := by
  have hk : s.keyWaitCancelled = false := by
    obtain ⟨l, rfl⟩ := State.stepFrom_eq hs
    exact State.keyWaitCancelled_of_cancel hc
  rw [State.stepFrom_step hs hk, State.interpreterStep_of_running hr hc, State.instructionCycle_of_decode hp hd]

/-- Settles O1: the two clauses are the two ways a step is taken. -/
theorem stepRunsDecodedInstruction : Obligations.StepRunsDecodedInstruction := by
  refine ⟨?_, ?_⟩
  · rintro s i ⟨hr, hc, hi⟩ hp hd
    exact State.step_eq_exec (.inl ⟨hi, rfl⟩) hr hc hp hd
  · intro s i rest hr hc hi hp hd
    exact State.step_eq_exec (.inr ⟨rest, hi, rfl⟩) hr hc hp hd

/-! ### The word placed where the next fetch reads (spec 20 R44, 30 R60) -/

theorem State.fetchPlace_le (s : State) : s.fetchPlace.toNat ≤ 0xFFE := by
  unfold State.fetchPlace
  split
  · assumption
  · decide

/-- The two bytes stored at the fetch's place are read back as the word they are the halves of. -/
theorem State.fetchedWord_withFetchWord {s : State} (hm : Memory.wf s.mem = true) (nbits w : Nat) :
    (s.withFetchWord nbits w).fetchedWord = tableWord nbits w := by
  have hfit : s.fetchPlace.toNat + [highByte (tableWord nbits w), lowByte (tableWord nbits w)].length
      ≤ Config.memSize := Nat.add_le_add_right s.fetchPlace_le 2
  simp [State.fetchedWord, State.withFetchWord, Memory.read_writeBytes _ _ _ hfit hm, wordOfBytes_split]

/-- The host's word decodes exactly as the 16-bit word it names. -/
theorem decodeTableWord_eq_some {nbits w : Nat} {i : Instr} :
    decodeTableWord nbits w = some i ↔ decodeWord (tableWord nbits w) = .ok i := by
  rw [decodeTableWord, decode, wordOfBytes_split]
  cases decodeWord (tableWord nbits w) <;> simp

/-- Settles O2: the placed word is the one fetched, and a running machine with no event to come runs it. -/
theorem placedWordIsFetchedAndRun : Obligations.PlacedWordIsFetchedAndRun := by
  intro s w i hm hd
  have hw : decodeWord (s.withFetchWord 16 w).fetchedWord = .ok i := by
    rw [State.fetchedWord_withFetchWord hm, decodeTableWord_eq_some.mp hd]
  exact State.step_eq_exec (.inl ⟨rfl, rfl⟩) rfl rfl s.fetchPlace_le hw

/-! ### The order of events (spec 00 R4, R7, 60 R217) -/

/-- With no cancelled key wait due, the first event to come is the transition taken. -/
theorem State.step_of_inputs_cons {s : State} {e : Event} {rest : List Event} (hi : s.inputs = e :: rest)
    (hk : ¬ (s.run = .waitKey ∧ s.cancel = true)) : step s = (s.setInputs rest).apply e := by
  rcases s.transition_cases with ⟨hr, hc, -⟩ | ⟨hn, -⟩ | ⟨e', rest', hi', h⟩
  · exact absurd ⟨hr, hc⟩ hk
  · cases hn.symm.trans hi
  · cases hi'.symm.trans hi
    exact h

theorem Strobes.events_of_por {e : Strobes} (h : e.por = true) : e.events = [.powerOn] := by
  simp [Strobes.events, h]

/-- Without `por` an event is applied exactly when the strobe it comes from is asserted. -/
theorem Strobes.mem_events {e : Strobes} (h : e.por = false) (v : Event) :
    v ∈ e.events ↔ (∃ k p, e.keySet = some (k, p) ∧ v = .keySet k p) ∨ (e.tickD = true ∧ v = .tickD) ∨
      (e.tickS = true ∧ v = .tickS) ∨ (e.cancel = true ∧ v = .cancel) ∨ (e.step = true ∧ v = .step) := by
  rcases hk : e.keySet with _ | ⟨k, p⟩
  · simp [Strobes.events, h, hk]
  · have hkey : (∃ k' p', some (k, p) = some (k', p') ∧ v = .keySet k' p') ↔ v = .keySet k p := by
      constructor
      · rintro ⟨_, _, ⟨⟩, hv⟩
        exact hv
      · exact fun hv => ⟨k, p, rfl, hv⟩
    rw [hkey]
    simp [Strobes.events, h, hk]

/-- An event that is there or not, before events in their order, keeps the order. -/
theorem optional_append_sublist_cons {α : Type} (b : Bool) (a : α) {l m : List α} (h : List.Sublist l m) :
    List.Sublist ((if b then [a] else []) ++ l) (a :: m) := by
  cases b with
  | false => exact h.cons a
  | true => exact h.cons_cons a

/-- Without `por` the events come in the fixed order, each at most once. -/
theorem Strobes.events_sublist {e : Strobes} (h : e.por = false) :
    List.Sublist e.events
      [.keySet (e.keySet.getD (0, false)).1 (e.keySet.getD (0, false)).2, .tickD, .tickS, .cancel, .step] := by
  rw [Strobes.events, if_neg (by simp [h])]
  simp only [List.append_assoc]
  refine List.Sublist.append (l₂ := [_]) ?_ (optional_append_sublist_cons _ _ (optional_append_sublist_cons _ _
    (optional_append_sublist_cons _ _ ?_)))
  · cases e.keySet <;> simp
  · cases e.step <;> simp

/-- Settles O49: the first event to come, the strobes in order, `por` alone, and exactly the asserted strobes. -/
theorem eventsApplyInOrder : Obligations.EventsApplyInOrder := by
  refine ⟨fun s e rest => State.step_of_inputs_cons, fun k p => rfl, fun e => Strobes.events_of_por, fun e h => ?_⟩
  refine ⟨fun k p => ?_, ?_, ?_, ?_, ?_, Strobes.events_sublist h⟩ <;> simp [Strobes.mem_events h]

/-! ### The output ports (spec 00 R6, 10 R16, R22, R24) -/

theorem State.ports_tone_iff (s : State) : s.ports.tone = true ↔ s.st ≠ 0 := bne_iff_ne

@[simp] theorem State.ports_runState (s : State) : s.ports.runState = s.run.code := rfl

@[simp] theorem State.ports_faultCode (s : State) : s.ports.faultCode = s.fault.code := rfl

/-- Settles O50: the tone from ST, a code for each run state and each fault, the rest as it stands in the state. -/
theorem portsShowTheState : Obligations.PortsShowTheState := by
  intro s
  refine ⟨s.ports_tone_iff, rfl, ?_, ?_, ?_, ?_, ?_, ?_, ?_, ?_, ?_, ?_, ?_, ?_, rfl, rfl⟩ <;>
    intro h <;> simp [h, RunState.code, FaultCode.code]

end Sys2Proof.Machine

/-! SUPPORT and PROOFS. The statements of 10_state.md: which instruction writes which piece of state, what no
instruction reads, and the invariant every step keeps. -/

namespace Sys2Proof.Machine

/-! ### An instruction as its check and its effect (spec 60 R209) -/

/-- The check an instruction makes before its first write: the fault it found, if any. -/
def State.checkOf (s : State) : Instr → Option Trap
  | .ret => if s.sp.val = 0 then some ⟨.stackUnderflow, encode .ret⟩ else none
  | .call nnn => if s.sp.val = 16 then some ⟨.stackOverflow, encode (.call nnn)⟩ else none
  | .drw _ _ n => boundsCheck s.i n.toNat
  | .skp x | .sknp x => keyCheck (s.getV x)
  | .bcd _ => boundsCheck s.i 3
  | .store x | .load x => boundsCheck s.i (x.toNat + 1)
  | _ => none

/-- The state an instruction whose check found nothing leaves; `exec_eq_afterCheck` ties it to `exec`. -/
def State.effectOf (s : State) : Instr → State
  | .cls => ((s.setFb Screen.blank).notifyIf (decide (s.fb ≠ Screen.blank))).advance
  | .ret => ({ s with sp := ⟨s.sp.val - 1, by omega⟩ } : State).setPc s.stack[s.sp.val - 1]
  | .jp nnn => s.setPc (zextAddr nnn)
  | .jpV0 nnn => s.setPc (zextAddr nnn + zextByte (s.getV 0))
  | .call nnn =>
    ({ s with stack := s.stack.setIfInBounds s.sp.val (s.pc + 2),
              sp := ⟨min (s.sp.val + 1) 16, by omega⟩ } : State).setPc (zextAddr nnn)
  | .seImm x kk => s.skipIf (s.getV x == kk)
  | .sneImm x kk => s.skipIf (s.getV x != kk)
  | .seReg x y _ => s.skipIf (s.getV x == s.getV y)
  | .sneReg x y _ => s.skipIf (s.getV x != s.getV y)
  | .ldImm x kk => (s.setV x kk).advance
  | .addImm x kk => (s.setV x (s.getV x + kk)).advance
  | .ldI nnn => (s.setI (zextAddr nnn)).advance
  | .rnd x kk => ((s.setV x (s.rand &&& kk)).countRand).advance
  | .drw x y n => s.finishDraw (Screen.draw s.fb (s.getV x) (s.getV y) (s.sprite n))
  | .ldReg x y => (s.setV x (s.getV y)).advance
  | .orReg x y => (s.setV x (s.getV x ||| s.getV y)).advance
  | .andReg x y => (s.setV x (s.getV x &&& s.getV y)).advance
  | .xorReg x y => (s.setV x (s.getV x ^^^ s.getV y)).advance
  | .addReg x y => (s.writeFlagThenResult x (carryFlag (s.getV x) (s.getV y)) (s.getV x + s.getV y)).advance
  | .subReg x y => (s.writeFlagThenResult x (noBorrowFlag (s.getV x) (s.getV y)) (s.getV x - s.getV y)).advance
  | .shr x _ => (s.writeFlagThenResult x (lowBitFlag (s.getV x)) (s.getV x >>> 1)).advance
  | .subnReg x y => (s.writeFlagThenResult x (noBorrowFlag (s.getV y) (s.getV x)) (s.getV y - s.getV x)).advance
  | .shl x _ => (s.writeFlagThenResult x (highBitFlag (s.getV x)) (s.getV x <<< 1)).advance
  | .skp x => s.skipIf (s.getKey (keyOf (s.getV x)))
  | .sknp x => s.skipIf (!s.getKey (keyOf (s.getV x)))
  | .ldVDt x => (s.setV x s.dt).advance
  | .ldVKey x => ((s.setKreg x).setKwait true).setRun .waitKey
  | .ldDtV x => (s.setDt (s.getV x)).advance
  | .ldStV x => (s.setSt (s.getV x)).advance
  | .addI x => (s.setI (s.i + zextByte (s.getV x))).advance
  | .ldFont x => (s.setI (glyphAddr (s.getV x))).advance
  | .bcd x => (s.setMem (Memory.writeBytes s.mem s.i.toNat (bcdDigits (s.getV x)))).advance
  | .store x => (s.setMem (Memory.writeBytes s.mem s.i.toNat (s.regsUpTo x))).advance
  | .load x => (s.loadRegs 0 (Memory.readBytes s.mem s.i.toNat (x.toNat + 1))).advance

/-- Every instruction is its check, then fault entry or its effect. -/
theorem exec_eq_afterCheck (i : Instr) (s : State) : exec i s = s.afterCheck (s.checkOf i) (s.effectOf i) := by
  cases i with
  | ret =>
    rw [exec, execRet, State.checkOf]
    split
    · next w t hp =>
      obtain ⟨h, rfl, rfl⟩ := State.pop_eq_some.mp hp
      rw [if_neg (by omega)]; rfl
    · next hp => rw [if_pos (State.pop_eq_none.mp hp)]; rfl
  | call nnn =>
    rw [exec, execCall, State.checkOf]
    split
    · next t hp =>
      obtain ⟨h, rfl⟩ := State.push_eq_some.mp hp
      rw [if_neg (by omega), State.afterCheck_none, State.effectOf]
      simp [Vector.setIfInBounds, Vector.set, Array.setIfInBounds, h]
    · next hp => rw [if_pos (State.push_eq_none.mp hp)]; rfl
  | _ => rfl

/-- What an instruction can do: raise the fault its check found, or its effect. -/
theorem exec_cases {i : Instr} {s t : State} (h : exec i s = .next t) :
    (∃ r, s.checkOf i = some r ∧ t = s.raise r) ∨ (s.checkOf i = none ∧ t = s.effectOf i) :=
  (State.afterCheck_cases ((exec_eq_afterCheck i s).symm.trans h)).symm

/-- A fault an instruction raises is latched as a fault, and is never CONFIG (spec 60 R207). -/
theorem State.code_of_checkOf {s : State} {i : Instr} {r : Trap} (h : s.checkOf i = some r) :
    r.code ≠ .none ∧ r.code ≠ .config := by
  have bounds {w : Word} {n : Nat} (hb : boundsCheck w n = some r) : r.code ≠ .none ∧ r.code ≠ .config := by
    obtain ⟨-, -, rfl⟩ := boundsCheck_eq_some.mp hb
    simp
  have key {b : Byte} (hk : keyCheck b = some r) : r.code ≠ .none ∧ r.code ≠ .config := by
    obtain ⟨-, rfl⟩ := keyCheck_eq_some.mp hk
    simp
  cases i with
  | ret | call =>
    rw [State.checkOf] at h
    split at h <;> cases h
    simp
  | drw | bcd | store | load => exact bounds h
  | skp | sknp => exact key h
  | _ => cases h

/-! ### Which instruction writes which piece of state (spec 10 R10 to R19) -/

@[simp] theorem State.finishDraw_mem (s : State) (d : DrawState) : (s.finishDraw d).mem = s.mem := by
  simp [State.finishDraw]
@[simp] theorem State.finishDraw_i (s : State) (d : DrawState) : (s.finishDraw d).i = s.i := by
  simp [State.finishDraw]
@[simp] theorem State.finishDraw_stack (s : State) (d : DrawState) : (s.finishDraw d).stack = s.stack := by
  simp [State.finishDraw]
@[simp] theorem State.finishDraw_sp (s : State) (d : DrawState) : (s.finishDraw d).sp = s.sp := by
  simp [State.finishDraw]
@[simp] theorem State.finishDraw_dt (s : State) (d : DrawState) : (s.finishDraw d).dt = s.dt := by
  simp [State.finishDraw]
@[simp] theorem State.finishDraw_st (s : State) (d : DrawState) : (s.finishDraw d).st = s.st := by
  simp [State.finishDraw]

/-- A draw's end writes VF and no other register. -/
theorem State.getV_finishDraw (s : State) (d : DrawState) (r : Nibble) :
    (s.finishDraw d).getV r = if r = 15 then flagByte d.collision else s.getV r := by
  simp [State.finishDraw, State.getV_setV, vf]

theorem State.effectOf_mem {s : State} {i : Instr} (h : ∀ x, i ≠ .bcd x ∧ i ≠ .store x) :
    (s.effectOf i).mem = s.mem := by
  cases i with
  | bcd x => exact absurd rfl (h x).1
  | store x => exact absurd rfl (h x).2
  | _ => simp [State.effectOf]

theorem State.effectOf_screen {s : State} {i : Instr} (h : i ≠ .cls ∧ ∀ x y n, i ≠ .drw x y n) :
    (s.effectOf i).fb = s.fb ∧ (s.effectOf i).fbUpdates = s.fbUpdates ∧ (s.effectOf i).dirty = s.dirty := by
  cases i with
  | cls => exact absurd rfl h.1
  | drw x y n => exact absurd rfl (h.2 x y n)
  | _ => simp [State.effectOf]

theorem State.effectOf_i {s : State} {i : Instr} (h : ∀ nnn x, i ≠ .ldI nnn ∧ i ≠ .addI x ∧ i ≠ .ldFont x) :
    (s.effectOf i).i = s.i := by
  cases i with
  | ldI nnn => exact absurd rfl (h nnn 0).1
  | addI x => exact absurd rfl (h 0 x).2.1
  | ldFont x => exact absurd rfl (h 0 x).2.2
  | _ => simp [State.effectOf]

theorem State.effectOf_stack {s : State} {i : Instr} (h : i ≠ .ret ∧ ∀ nnn, i ≠ .call nnn) :
    (s.effectOf i).stack = s.stack ∧ (s.effectOf i).sp = s.sp := by
  cases i with
  | ret => exact absurd rfl h.1
  | call nnn => exact absurd rfl (h.2 nnn)
  | _ => simp [State.effectOf]

theorem State.effectOf_dt {s : State} {i : Instr} (h : ∀ x, i ≠ .ldDtV x) : (s.effectOf i).dt = s.dt := by
  cases i with
  | ldDtV x => exact absurd rfl (h x)
  | _ => simp [State.effectOf]

theorem State.effectOf_st {s : State} {i : Instr} (h : ∀ x, i ≠ .ldStV x) : (s.effectOf i).st = s.st := by
  cases i with
  | ldStV x => exact absurd rfl (h x)
  | _ => simp [State.effectOf]

theorem State.getV_effectOf {s : State} {i : Instr} {r : Nibble} (h : writesReg i r = false) :
    (s.effectOf i).getV r = s.getV r := by
  cases i with
  | load x =>
    have := x.isLt
    have hx : ¬ r.toNat ≤ x.toNat := by simpa [writesReg] using h
    rw [State.effectOf, State.getV_advance, State.getV_loadRegs _ _ _ (by simp; omega), if_neg (by simp; omega)]
  | drw => simp_all [writesReg, State.effectOf, State.getV_finishDraw]
  | addReg | subReg | shr | subnReg | shl =>
    simp_all [writesReg, State.effectOf, State.getV_writeFlagThenResult]
  | ldImm | addImm | rnd | ldVDt | ldReg | orReg | andReg | xorReg =>
    simp_all [writesReg, State.effectOf, State.getV_setV]
  | ret | call => rfl
  | _ => simp [State.effectOf]

/-- Settles O52: a fault writes neither memory nor the screen, and an effect writes them as named. -/
theorem onlyStoresWriteMemoryOnlyDrawsTheScreen : Obligations.OnlyStoresWriteMemoryOnlyDrawsTheScreen := by
  intro i s t h
  rcases exec_cases h with ⟨r, -, rfl⟩ | ⟨-, rfl⟩
  · simp
  · exact ⟨State.effectOf_mem, State.effectOf_screen⟩

/-- Settles O53: a fault writes none of the four, and an effect writes them as named. -/
theorem specialRegistersHaveTheirOwnWriters : Obligations.SpecialRegistersHaveTheirOwnWriters := by
  intro i s t h
  rcases exec_cases h with ⟨r, -, rfl⟩ | ⟨-, rfl⟩
  · simp
  · exact ⟨State.effectOf_i, State.effectOf_stack, State.effectOf_dt, State.effectOf_st⟩

/-- Settles O54: a fault writes no general register, and an effect only those `writesReg` names. -/
theorem registersChangeOnlyAsNamed : Obligations.RegistersChangeOnlyAsNamed := by
  intro i s t r h hw
  rcases exec_cases h with ⟨f, -, rfl⟩ | ⟨-, rfl⟩
  · simp
  · exact State.getV_effectOf hw

/-! ### What no instruction reads (spec 10 R16, R23, R24) -/

/-- The state with other values in ST, CANCEL and the fault registers. -/
def State.disguise (s : State) (st : Byte) (cancel : Bool) (c : FaultCode) (info p : Word) : State :=
  ((s.setSt st).setCancel cancel).setFault c info p

section
variable (s : State) (st : Byte) (cancel : Bool) (c : FaultCode) (info p : Word)

theorem State.disguise_onlyChanges : OnlyChanges [.sound, .cancel, .faults] s (s.disguise st cancel c info p) := by
  simp [OnlyChanges, Part.forall_iff, AgreeOn, State.disguise]

theorem State.checkOf_disguise (i : Instr) : (s.disguise st cancel c info p).checkOf i = s.checkOf i := by
  cases i <;> rfl

theorem State.disguise_mem : (s.disguise st cancel c info p).mem = s.mem := rfl

theorem State.disguise_i : (s.disguise st cancel c info p).i = s.i := rfl

theorem State.disguise_fb : (s.disguise st cancel c info p).fb = s.fb := rfl

theorem State.getV_disguise (r : Nibble) : (s.disguise st cancel c info p).getV r = s.getV r := rfl

theorem State.sprite_disguise (n : Nibble) : (s.disguise st cancel c info p).sprite n = s.sprite n := by
  rw [State.sprite, State.sprite, State.disguise_mem, State.disguise_i]

theorem State.setFb_disguise (f : Screen) :
    (s.disguise st cancel c info p).setFb f = (s.setFb f).disguise st cancel c info p := rfl

theorem State.advance_disguise :
    (s.disguise st cancel c info p).advance = s.advance.disguise st cancel c info p := rfl

theorem State.raise_disguise (r : Trap) :
    (s.disguise st cancel c info p).raise r = (s.raise r).disguise st cancel r.code r.info s.pc := rfl

theorem State.notifyIf_disguise (b : Bool) :
    (s.disguise st cancel c info p).notifyIf b = (s.notifyIf b).disguise st cancel c info p := by
  cases b <;> rfl

theorem State.finishDraw_disguise (d : DrawState) :
    (s.disguise st cancel c info p).finishDraw d = (s.finishDraw d).disguise st cancel c info p := by
  rw [State.finishDraw, State.setFb_disguise, State.notifyIf_disguise]
  rfl

theorem State.loadRegs_disguise (a : Nat) (l : List Byte) :
    (s.disguise st cancel c info p).loadRegs a l = (s.loadRegs a l).disguise st cancel c info p := by
  induction l generalizing s a with
  | nil => rfl
  | cons b bs ih => exact ih (s.setV (BitVec.ofNat 4 a) b) (a + 1)

/-- An effect does the same to everything else; ST stays disguised or, under FX18, is written from a register. -/
theorem State.effectOf_disguise (i : Instr) :
    ∃ st', (s.disguise st cancel c info p).effectOf i = (s.effectOf i).disguise st' cancel c info p := by
  cases i with
  | cls =>
    rw [State.effectOf, State.effectOf, State.disguise_fb, State.setFb_disguise, State.notifyIf_disguise,
      State.advance_disguise]
    exact ⟨st, rfl⟩
  | drw x y n =>
    rw [State.effectOf, State.effectOf, State.disguise_fb, State.getV_disguise, State.getV_disguise,
      State.sprite_disguise, State.finishDraw_disguise]
    exact ⟨st, rfl⟩
  | load x =>
    rw [State.effectOf, State.effectOf, State.disguise_mem, State.disguise_i, State.loadRegs_disguise,
      State.advance_disguise]
    exact ⟨st, rfl⟩
  | ldStV x => exact ⟨s.getV x, rfl⟩
  | _ => exact ⟨st, rfl⟩

end

/-- Settles O56: the disguised run ends in the plain run's end, disguised. -/
theorem programCannotReadSoundTimerOrFaults : Obligations.ProgramCannotReadSoundTimerOrFaults := by
  intro i s t st cancel c info p h
  have key : ∃ st' c' info' p',
      exec i (s.disguise st cancel c info p) = .next (t.disguise st' cancel c' info' p') := by
    rw [exec_eq_afterCheck, State.checkOf_disguise]
    rcases exec_cases h with ⟨r, hc, rfl⟩ | ⟨hc, rfl⟩
    · rw [hc, State.afterCheck_some, State.raise_disguise]
      exact ⟨_, _, _, _, rfl⟩
    · obtain ⟨st', he⟩ := s.effectOf_disguise st cancel c info p i
      rw [hc, State.afterCheck_none, he]
      exact ⟨_, _, _, _, rfl⟩
  obtain ⟨st', c', info', p', hu⟩ := key
  exact ⟨_, hu, t.disguise_onlyChanges st' cancel c' info' p', rfl, rfl, rfl⟩


/-! ### What a step can do (spec 00 R4, 40 R80, 60 R215, 70 R253) -/

/-- The interpreter's step: nothing, the stop of a cancelled run, a fault with a run-time code, or the effect of an
instruction at a PC a word can be fetched from. -/
theorem State.interpreterStep_next {s t : State} (h : s.interpreterStep = .next t) :
    t = s ∨ (s.run = .running ∧ (t = s.setRun .stopped ∨
      (∃ r : Trap, r.code ≠ .none ∧ r.code ≠ .config ∧ t = s.raise r) ∨
      (s.pc.toNat ≤ 0xFFE ∧ ∃ i, s.checkOf i = none ∧ t = s.effectOf i))) := by
  rcases s.interpreterStep_cases with ⟨-, hs⟩ | ⟨hr, -, hs⟩ | ⟨hr, -, hs⟩
  · cases hs.symm.trans h
    exact .inl rfl
  · cases hs.symm.trans h
    exact .inr ⟨hr, .inl rfl⟩
  · refine .inr ⟨hr, .inr ?_⟩
    rw [hs] at h
    rcases s.instructionCycle_cases with ⟨-, hc⟩ | ⟨-, -, hc⟩ | ⟨hp, i, -, hc⟩
    · cases hc.symm.trans h
      exact .inl ⟨_, by simp, by simp, rfl⟩
    · cases hc.symm.trans h
      exact .inl ⟨_, by simp, by simp, rfl⟩
    · rcases exec_cases (hc.symm.trans h) with ⟨r, hk, rfl⟩ | ⟨hk, rfl⟩
      · obtain ⟨hn, hg⟩ := State.code_of_checkOf hk
        exact .inl ⟨r, hn, hg, rfl⟩
      · exact .inr ⟨hp, i, hk, rfl⟩

/-- A step: the cancelled key wait's internal transition, else one event, the interpreter's step among them, taken from
the state with some list of events still to come. -/
theorem step_cases {s t : State} (h : step s = .next t) :
    (s.run = .waitKey ∧ t = s.cancelKeyWait) ∨ ∃ l e, (s.setInputs l).apply e = .next t := by
  rcases s.transition_cases with ⟨hr, -, ht⟩ | ⟨-, ht⟩ | ⟨e, rest, -, ht⟩
  · cases ht.symm.trans h
    exact .inl ⟨hr, rfl⟩
  · exact .inr ⟨s.inputs, .step, ht.symm.trans h⟩
  · exact .inr ⟨rest, e, ht.symm.trans h⟩

/-- A key change: with a request pending and the key newly pressed, the wait is fulfilled, else the key is written. -/
theorem State.keySet_cases (s : State) (k : Nibble) (p : Bool) :
    (s.getKey k = false ∧ p = true ∧ s.kwait = true ∧ s.keySet k p = (s.setKey k p).fulfilKeyWait k) ∨
    (¬ (s.getKey k = false ∧ p = true ∧ s.kwait = true) ∧ s.keySet k p = s.setKey k p) := by
  unfold State.keySet
  split <;> simp_all

@[simp] theorem State.keySet_mem (s : State) (k : Nibble) (p : Bool) : (s.keySet k p).mem = s.mem := by
  rcases s.keySet_cases k p with ⟨-, -, -, h⟩ | ⟨-, h⟩ <;> rw [h] <;> rfl

/-- An accepted load stores the bytes that fit; with more of them it is then the fault LOAD (spec 60 R206). -/
theorem State.loadProgram_cases (s : State) (l : List Byte) :
    (l.length ≤ Config.progMax ∧
      s.loadProgram l = s.setMem (Memory.writeBytes s.mem Config.progBase (l.take Config.progMax))) ∨
    (Config.progMax < l.length ∧
      s.loadProgram l = (s.setMem (Memory.writeBytes s.mem Config.progBase (l.take Config.progMax))).enterFault
        ⟨.load, BitVec.ofNat 16 (min l.length 0xFFFF)⟩ (BitVec.ofNat 16 Config.progBase)) := by
  unfold State.loadProgram
  by_cases h : l.length > Config.progMax
  · exact .inr ⟨h, if_pos h⟩
  · exact .inl ⟨by omega, if_neg h⟩

@[simp] theorem State.loadProgram_mem (s : State) (l : List Byte) :
    (s.loadProgram l).mem = Memory.writeBytes s.mem Config.progBase (l.take Config.progMax) := by
  rcases s.loadProgram_cases l with ⟨-, h⟩ | ⟨-, h⟩ <;> rw [h] <;> rfl

/-! ### Memory stays canonical (spec 20 R40) -/

/-- A run of writes that passed the bounds check keeps the canonical form. -/
theorem Memory.wf_writeBytes_of_boundsCheck {m : Memory} {w : Word} {n : Nat} {l : List Byte} (hm : m.wf = true)
    (hb : boundsCheck w n = none) (hl : l.length = n) (hn : 0 < n) :
    (Memory.writeBytes m w.toNat l).wf = true := by
  refine Memory.wf_writeBytes _ _ _ ?_ hm
  rcases boundsCheck_eq_none.mp hb with h | h
  · omega
  · rwa [hl]

theorem State.effectOf_mem_wf {s : State} {i : Instr} (hm : Memory.wf s.mem = true) (hc : s.checkOf i = none) :
    Memory.wf (s.effectOf i).mem = true := by
  by_cases hi : ∀ x, i ≠ .bcd x ∧ i ≠ .store x
  · rwa [State.effectOf_mem hi]
  · cases i with
    | bcd x => exact Memory.wf_writeBytes_of_boundsCheck hm hc (bcdDigits_length _) (by omega)
    | store x => exact Memory.wf_writeBytes_of_boundsCheck hm hc (s.regsUpTo_length x) (by omega)
    | _ => exact absurd (by simp) hi

theorem State.resetMachine_mem_wf {s : State} (hm : Memory.wf s.mem = true) :
    Memory.wf s.resetMachine.mem = true := by
  rw [State.resetMachine_mem]
  exact Memory.wf_writeBytes _ _ _ (by decide) hm

theorem State.loadProgram_mem_wf {s : State} (hm : Memory.wf s.mem = true) (l : List Byte) :
    Memory.wf (s.loadProgram l).mem = true := by
  rw [State.loadProgram_mem]
  refine Memory.wf_writeBytes _ _ _ ?_ hm
  simp only [List.length_take, Config.progBase, Config.progMax, Config.memSize]
  omega

/-- Every event keeps memory canonical. -/
theorem State.apply_mem_wf {s t : State} {e : Event} (hm : Memory.wf s.mem = true) (h : s.apply e = .next t) :
    Memory.wf t.mem = true := by
  cases e with
  | step =>
    rcases State.interpreterStep_next h with rfl | ⟨-, rfl | ⟨r, -, -, rfl⟩ | ⟨-, i, hc, rfl⟩⟩
    · exact hm
    · exact hm
    · exact hm
    · exact State.effectOf_mem_wf hm hc
  | tickD | tickS | cancel =>
    cases h
    exact hm
  | keySet k p =>
    cases h
    rwa [State.keySet_mem]
  | powerOn =>
    cases h
    rfl
  | reset =>
    cases h
    rcases s.hostReset_cases with ⟨-, h⟩ | ⟨-, h⟩ <;> rw [h]
    · exact State.resetMachine_mem_wf hm
    · exact hm
  | load l =>
    cases h
    rcases s.hostLoad_cases l with ⟨-, h⟩ | ⟨-, h⟩ <;> rw [h]
    · exact State.loadProgram_mem_wf hm l
    · exact hm
  | run =>
    cases h
    rcases s.hostRun_cases with ⟨-, h⟩ | ⟨-, h⟩ <;> rw [h] <;> exact hm

/-- Settles O59: neither the cancelled key wait nor any event leaves the canonical form. -/
theorem stepKeepsMemoryCanonical : Obligations.StepKeepsMemoryCanonical := by
  intro s t hm h
  rcases step_cases h with ⟨-, rfl⟩ | ⟨l, e, ha⟩
  · exact hm
  · exact State.apply_mem_wf (s := s.setInputs l) hm ha

/-! ### The invariant, one rule per kind of change (spec 10 R13, R14, R19, R21, R22, R24, 60 R207, R208) -/

/-- Settles O58: the power-on values, field by field. -/
theorem resetMeetsTheInvariant : Obligations.ResetMeetsTheInvariant where
  control := ⟨by decide, rfl, by decide, by decide, fun _ => ⟨rfl, rfl⟩⟩
  addresses := ⟨by decide, by decide, by decide⟩
  memory := rfl

/-- The invariant says nothing of these pieces of state. -/
theorem State.Inv.frame {s : State} (h : s.Inv) {v : Vector Byte 16} {i : Word} {sp : Fin 17} {dt st : Byte}
    {fb : Screen} {key : Vector Bool 16} {kreg : Nibble} {cancel : Bool} {rand updates : Nat} {inputs : List Event} :
    State.Inv { s with
      v := v, i := i, sp := sp, dt := dt, st := st, fb := fb, key := key, kreg := kreg, cancel := cancel,
      randCount := rand, fbUpdates := updates, inputs := inputs } := by
  obtain ⟨⟨hw, hd, hl, hc, hz⟩, ⟨hp, hk, hs⟩, hm⟩ := h
  exact ⟨⟨hw, hd, hl, hc, hz⟩, ⟨hp, hk, hs⟩, hm⟩

theorem State.Inv.setMem {s : State} (h : s.Inv) {m : Memory} (hm : m.wf = true) : (s.setMem m).Inv := by
  obtain ⟨⟨hw, hd, hl, hc, hz⟩, ⟨hp, hk, hs⟩, -⟩ := h
  exact ⟨⟨hw, hd, hl, hc, hz⟩, ⟨hp, hk, hs⟩, hm⟩

theorem State.Inv.setPc {s : State} (h : s.Inv) (hr : s.run = .running) {w : Word} (hw : w.toNat ≤ 0x10FE) :
    (s.setPc w).Inv := by
  obtain ⟨⟨hk, hd, hl, hc, hz⟩, ⟨-, -, hs⟩, hm⟩ := h
  exact ⟨⟨hk, hd, hl, hc, hz⟩, ⟨hw, fun e => absurd (hr.symm.trans e) (by decide), hs⟩, hm⟩

theorem State.Inv.setStack {s : State} (h : s.Inv) (n : Nat) {w : Word} (hw : w.toNat ≤ 0x1000) :
    State.Inv { s with stack := s.stack.setIfInBounds n w } := by
  obtain ⟨⟨hk, hd, hl, hc, hz⟩, ⟨hp, hb, hs⟩, hm⟩ := h
  refine ⟨⟨hk, hd, hl, hc, hz⟩, ⟨hp, hb, fun j => ?_⟩, hm⟩
  rw [Vector.getElem_setIfInBounds]
  split
  · exact hw
  · exact hs j

theorem State.Inv.notifyIf {s : State} (h : s.Inv) (c : Bool) : (s.notifyIf c).Inv := by
  cases c with
  | false => exact h
  | true =>
    obtain ⟨⟨hk, -, hl, hc, hz⟩, ⟨hp, hb, hs⟩, hm⟩ := h
    exact ⟨⟨hk, rfl, hl, hc, hz⟩, ⟨hp, hb, hs⟩, hm⟩

/-- RUN and KWAIT may change together, outside FAULTED; a key wait begins at a fetched address. -/
theorem State.Inv.setRun {s : State} (h : s.Inv) (hf : s.run ≠ .faulted) {b : Bool} {r : RunState}
    (hb : b = true ↔ r = .waitKey) (hr : r ≠ .faulted) (hp : r = .waitKey → s.pc.toNat ≤ 0xFFE) :
    ((s.setKwait b).setRun r).Inv := by
  obtain ⟨⟨-, hd, hl, hc, hz⟩, ⟨hpc, -, hs⟩, hm⟩ := h
  exact ⟨⟨hb, hd, hl.trans (iff_of_false hf hr), hc, hz⟩, ⟨hpc, hp, hs⟩, hm⟩

/-- Fault entry latches a run-time fault together with FAULTED (spec 60 R208). -/
theorem State.Inv.enterFault {s : State} (h : s.Inv) {r : Trap} (hn : r.code ≠ .none) (hc : r.code ≠ .config)
    (p : Word) : (s.enterFault r p).Inv := by
  obtain ⟨⟨-, hd, -, -, -⟩, ⟨hpc, -, hs⟩, hm⟩ := h
  exact ⟨⟨by simp, hd, by simpa using hn, hc, fun e => absurd e hn⟩, ⟨hpc, by simp, hs⟩, hm⟩

/-! ### Every instruction and every event keeps the invariant -/

theorem zextAddr_toNat_le (nnn : Addr12) : (zextAddr nnn).toNat ≤ 0xFFF := by
  have := nnn.isLt
  simp [zextAddr]
  omega

/-- The longest jump with offset goes to 0xFFF + 0xFF (spec 10 R13). -/
theorem zextAddr_add_zextByte_toNat_le (nnn : Addr12) (b : Byte) : (zextAddr nnn + zextByte b).toNat ≤ 0x10FE := by
  have ha := zextAddr_toNat_le nnn
  have hb : (zextByte b).toNat ≤ 0xFF := by
    have := b.isLt
    simp [zextByte]
    omega
  rw [BitVec.toNat_add]
  omega

theorem State.Inv.advance {s : State} (h : s.Inv) (hr : s.run = .running) (hp : s.pc.toNat ≤ 0xFFE) :
    s.advance.Inv := h.setPc hr (by bv_omega)

theorem State.Inv.skipIf {s : State} (h : s.Inv) (hr : s.run = .running) (hp : s.pc.toNat ≤ 0xFFE) (c : Bool) :
    (s.skipIf c).Inv := h.setPc hr (by split <;> bv_omega)

theorem State.loadRegs_eq (s : State) (a : Nat) (l : List Byte) :
    s.loadRegs a l = { s with v := (s.loadRegs a l).v } := by
  induction l generalizing s a with
  | nil => rfl
  | cons b bs ih => exact ih (s.setV (BitVec.ofNat 4 a) b) (a + 1)

/-- The effect of an instruction at a fetched address keeps the invariant: PC moves as its kind says, and what else it
writes is memory, the stack, the key wait, the screen or nothing the invariant speaks of. -/
theorem State.Inv.effectOf {s : State} (h : s.Inv) (hr : s.run = .running) (hp : s.pc.toNat ≤ 0xFFE) {i : Instr}
    (hc : s.checkOf i = none) : (s.effectOf i).Inv := by
  have hm := State.effectOf_mem_wf h.memory hc
  cases i with
  | ret =>
    have hs : State.Inv { s with sp := ⟨s.sp.val - 1, by omega⟩ } := h.frame
    exact hs.setPc hr (Nat.le_trans (h.addresses.stackBound ⟨s.sp.val - 1, by omega⟩) (by decide))
  | jp nnn => exact h.setPc hr (Nat.le_trans (zextAddr_toNat_le nnn) (by decide))
  | jpV0 nnn => exact h.setPc hr (zextAddr_add_zextByte_toNat_le nnn _)
  | call nnn =>
    have hw : (s.pc + 2).toNat ≤ 0x1000 := by bv_omega
    exact (h.setStack s.sp.val hw).frame.setPc hr (Nat.le_trans (zextAddr_toNat_le nnn) (by decide))
  | seImm | sneImm | seReg | sneReg | skp | sknp => exact h.skipIf hr hp _
  | cls =>
    have hs : (s.setFb Screen.blank).Inv := h.frame
    exact (hs.notifyIf _).advance (by simpa using hr) (by simpa using hp)
  | drw x y n =>
    have hs : (s.setFb (Screen.draw s.fb (s.getV x) (s.getV y) (s.sprite n)).fb).Inv := h.frame
    exact (hs.notifyIf _).frame.advance (by simpa using hr) (by simpa using hp)
  | ldVKey x => exact h.frame.setRun (s := s.setKreg x) (by simp [hr]) (by simp) (by simp) fun _ => hp
  | bcd | store => exact (h.setMem hm).advance hr hp
  | load x =>
    rw [State.effectOf, State.loadRegs_eq]
    exact h.frame.advance hr hp
  | _ => exact h.frame.advance hr hp

/-- A pending request is fulfilled in WAIT_KEY, where PC is a fetched address. -/
theorem State.Inv.fulfilKeyWait {s : State} (h : s.Inv) (hk : s.kwait = true) (k : Nibble) :
    (s.fulfilKeyWait k).Inv := by
  have hr : s.run = .waitKey := h.control.waits.mp hk
  have hs : (s.setV s.kreg (zextKey k)).Inv := h.frame
  have ht := hs.setRun (b := false) (r := .running) (by simp [hr]) (by simp) (by simp) (by simp)
  exact ht.advance rfl (h.addresses.waitBound hr)

/-- RUN alone changes to a run state other than WAIT_KEY and FAULTED, where no request is pending. -/
theorem State.Inv.setRun_of_idle {s : State} (h : s.Inv) (hs : s.run = .stopped ∨ s.run = .running) {r : RunState}
    (hr : r = .stopped ∨ r = .running) : (s.setRun r).Inv := by
  have hk : s.kwait = false := by
    rcases hs with hs | hs <;> simpa [hs] using h.control.waits
  have hb : s.kwait = true ↔ r = .waitKey := by
    rcases hr with rfl | rfl <;> simp [hk]
  exact h.setRun (by rcases hs with hs | hs <;> simp [hs]) hb (by rcases hr with rfl | rfl <;> simp)
    (by rcases hr with rfl | rfl <;> simp)

theorem State.Inv.resetMachine {s : State} (h : s.Inv) : s.resetMachine.Inv := by
  have hm := State.resetMachine_mem_wf h.memory
  rw [State.resetMachine_mem] at hm
  rw [State.resetMachine]
  generalize Memory.writeBytes s.mem Config.fontBase Config.font = m at hm ⊢
  exact (State.Inv.setMem resetMeetsTheInvariant hm).frame

theorem State.Inv.loadProgram {s : State} (h : s.Inv) (l : List Byte) : (s.loadProgram l).Inv := by
  have hm := State.loadProgram_mem_wf h.memory l
  rw [State.loadProgram_mem] at hm
  rcases s.loadProgram_cases l with ⟨-, e⟩ | ⟨-, e⟩ <;> rw [e]
  · exact h.setMem hm
  · exact (h.setMem hm).enterFault (by simp) (by simp) _

/-- Every event keeps the invariant. -/
theorem State.Inv.apply {s t : State} {e : Event} (h : s.Inv) (ht : s.apply e = .next t) : t.Inv := by
  cases e with
  | step =>
    rcases State.interpreterStep_next ht with rfl | ⟨hr, rfl | ⟨r, hn, hc, rfl⟩ | ⟨hp, i, hc, rfl⟩⟩
    · exact h
    · exact h.setRun_of_idle (.inr hr) (.inl rfl)
    · exact h.enterFault hn hc s.pc
    · exact h.effectOf hr hp hc
  | tickD | tickS | cancel =>
    cases ht
    exact h.frame
  | keySet k p =>
    cases ht
    have hs : (s.setKey k p).Inv := h.frame
    rcases s.keySet_cases k p with ⟨-, -, hk, e⟩ | ⟨-, e⟩ <;> rw [e]
    · exact hs.fulfilKeyWait hk k
    · exact hs
  | powerOn =>
    cases ht
    exact State.Inv.frame resetMeetsTheInvariant
  | reset =>
    cases ht
    rcases s.hostReset_cases with ⟨-, e⟩ | ⟨-, e⟩ <;> rw [e]
    · exact h.resetMachine
    · exact h
  | load l =>
    cases ht
    rcases s.hostLoad_cases l with ⟨-, e⟩ | ⟨-, e⟩ <;> rw [e]
    · exact h.loadProgram l
    · exact h
  | run =>
    cases ht
    have hs : (s.setCancel false).Inv := h.frame
    rcases s.hostRun_cases with ⟨hr, e⟩ | ⟨-, e⟩ <;> rw [e]
    · exact hs.setRun_of_idle (.inl hr) (.inr rfl)
    · exact h

/-- Settles O60: the cancelled key wait stops the machine with the request dropped, and every event keeps the
invariant. -/
theorem stepKeepsTheInvariant : Obligations.StepKeepsTheInvariant := by
  intro s t h ht
  rcases step_cases ht with ⟨hr, rfl⟩ | ⟨l, e, ha⟩
  · exact h.setRun (by simp [hr]) (by simp) (by simp) (by simp)
  · exact State.Inv.apply (s := s.setInputs l) h.frame ha

end Sys2Proof.Machine

/-! SUPPORT and PROOFS. The statements of 20_memory.md: what the fetch reads after FX55, the font after power-on. -/

namespace Sys2Proof.Machine

/-! ### A store over the next instruction (spec 20 R51, 45 R157) -/

/-- The fetch at a PC up to 0xFFE is legal (spec 30 R60). -/
theorem State.fetch_of_le {s : State} (hp : s.pc.toNat ≤ 0xFFE) : s.fetch = .ok s.fetchedWord := by
  rw [State.fetch, boundsCheck_eq_none.mpr (.inr (by omega))]

/-- FX55 with its addresses in memory has its effect and no fault. -/
theorem exec_store_of_fits {s : State} {x : Nibble} (hx : s.i.toNat + x.toNat < 4096) :
    exec (.store x) s = .next (s.effectOf (.store x)) := by
  have hc : s.checkOf (.store x) = none := boundsCheck_eq_none.mpr (.inr (by omega))
  rw [exec_eq_afterCheck, hc, State.afterCheck_none]

/-- After FX55 the byte at I + r is V[r], for each register stored (spec 45 R157). -/
theorem State.read_effectOf_store {s : State} {x r : Nibble} (hm : Memory.wf s.mem = true)
    (hx : s.i.toNat + x.toNat < 4096) (hr : r.toNat ≤ x.toNat) :
    Memory.read (s.effectOf (.store x)).mem (s.i.toNat + r.toNat) = s.getV r := by
  have hfit : s.i.toNat + (s.regsUpTo x).length ≤ Config.memSize := by
    rw [State.regsUpTo_length]
    exact hx
  have hin : s.i.toNat ≤ s.i.toNat + r.toNat ∧ s.i.toNat + r.toNat < s.i.toNat + (s.regsUpTo x).length := by
    rw [State.regsUpTo_length]
    omega
  rw [State.effectOf, State.advance_mem, State.setMem_mem, Memory.read_writeBytes _ _ _ hfit hm, if_pos hin,
    Nat.add_sub_cancel_left, State.getD_regsUpTo s x r 0 hr]

/-- Settles O37: the store leaves PC at I, where it has just written V[0] and V[1], so the fetch there is legal and
reads those two bytes. -/
theorem storedWordIsFetchedNext : Obligations.StoredWordIsFetchedNext := by
  intro s x hm hone hi hx
  have hpc : (s.effectOf (.store x)).pc = s.i := hi.symm
  have h0 : Memory.read (s.effectOf (.store x)).mem s.i.toNat = s.getV 0 :=
    State.read_effectOf_store (r := 0) hm hx (Nat.zero_le _)
  have h1 : Memory.read (s.effectOf (.store x)).mem (s.i.toNat + 1) = s.getV 1 :=
    State.read_effectOf_store (r := 1) hm hx hone
  refine ⟨_, exec_store_of_fits hx, ?_⟩
  rw [State.fetch_of_le (by rw [hpc]; omega), State.fetchedWord, hpc, h0, h1, wordOfBytes]

/-! ### The font after power-on (spec 20 R42) -/

/-- Where nothing has been written, the eighty bytes from FONT_BASE upward are the font. -/
theorem Memory.readBytes_fontBase_of_unwritten : Memory.readBytes [] Config.fontBase 80 = Config.font := by decide

/-- Settles O42: nothing is written at power-on, and the font parameter is the spec's table. -/
theorem fontAfterReset : Obligations.FontAfterReset := Memory.readBytes_fontBase_of_unwritten

end Sys2Proof.Machine

/-! SUPPORT and PROOFS. The statements of 30_encoding.md: the decoder against the encoder, the opcode map, the four
classes of words that are no instruction, the fetch. -/

namespace Sys2Proof

/-! ### The fields of a word, and the word from its fields (spec 30 R61, R62) -/

theorem fieldOp_toNat (w : Word) : (fieldOp w).toNat = w.toNat / 4096 := by
  have := w.isLt
  rw [fieldOp, BitVec.extractLsb'_toNat, Nat.shiftRight_eq_div_pow]
  omega

theorem fieldN_toNat (w : Word) : (fieldN w).toNat = w.toNat % 16 := by simp [fieldN]

theorem fieldKK_toNat (w : Word) : (fieldKK w).toNat = w.toNat % 256 := by simp [fieldKK]

/-- A word is its opcode, X and KK. -/
theorem fieldOp_append_fieldX_append_fieldKK (w : Word) : fieldOp w ++ fieldX w ++ fieldKK w = w := by
  have h : fieldOp w ++ fieldX w = w.extractLsb' 8 8 := BitVec.extractLsb'_append_extractLsb'_eq_extractLsb' rfl
  rw [h]
  exact (BitVec.extractLsb'_append_extractLsb'_eq_extractLsb' rfl).trans BitVec.extractLsb'_eq_self

/-- A word is its opcode and NNN. -/
theorem fieldOp_append_fieldNNN (w : Word) : fieldOp w ++ fieldNNN w = w :=
  (BitVec.extractLsb'_append_extractLsb'_eq_extractLsb' rfl).trans BitVec.extractLsb'_eq_self

theorem ofNat_fieldOp_toNat (w : Word) : BitVec.ofNat 4 (fieldOp w).toNat = fieldOp w := by simp

theorem ofNat_fieldN_toNat (w : Word) : BitVec.ofNat 4 (fieldN w).toNat = fieldN w := by simp

/-! ### The families that select further (spec 30 R64) -/

theorem decodeWord_of_op_alu {w : Word} (h : fieldOp w = 0x8#4) : decodeWord w = decodeAlu w := by
  rw [decodeWord, h]; rfl

theorem decodeWord_of_op_key {w : Word} (h : fieldOp w = 0xE#4) : decodeWord w = decodeKey w := by
  rw [decodeWord, h]; rfl

theorem decodeWord_of_op_misc {w : Word} (h : fieldOp w = 0xF#4) : decodeWord w = decodeMisc w := by
  rw [decodeWord, h]; rfl

/-! ### Decoding and encoding (spec 20 R44, 30 R62, R65) -/

/-- Every instruction decodes from its own word: the fields are read back as they were laid down. -/
theorem decodeWord_encode (i : Instr) : decodeWord (encode i) = .ok i := by
  cases i with
  | cls | ret => rfl
  | jp | jpV0 | call | ldI => rw [encode, decodeWord, fieldOp_fmtA, fieldNNN_fmtA]; rfl
  | seImm | sneImm | ldImm | addImm | rnd => rw [encode, decodeWord, fieldOp_fmtK, fieldX_fmtK, fieldKK_fmtK]; rfl
  | seReg | sneReg | drw => rw [encode, decodeWord, fieldOp_fmtR, fieldX_fmtR, fieldY_fmtR, fieldN_fmtR]; rfl
  | ldReg | orReg | andReg | xorReg | addReg | subReg | shr | subnReg | shl =>
    rw [encode, decodeWord_of_op_alu (fieldOp_fmtR ..), decodeAlu, fieldX_fmtR, fieldY_fmtR, fieldN_fmtR]; rfl
  | skp | sknp => rw [encode, decodeWord_of_op_key (fieldOp_fmtK ..), decodeKey, fieldX_fmtK, fieldKK_fmtK]; rfl
  | ldVDt | ldVKey | ldDtV | ldStV | addI | ldFont | bcd | store | load =>
    rw [encode, decodeWord_of_op_misc (fieldOp_fmtK ..), decodeMisc, fieldX_fmtK, fieldKK_fmtK]; rfl

theorem encode_of_decodeZero {w : Word} {i : Instr} (h : decodeZero w = .ok i) : encode i = w := by
  unfold decodeZero at h
  split_ifs at h with h1 h2 <;> cases h
  · exact h1.symm
  · exact h2.symm

theorem encode_of_decodeAlu {w : Word} {i : Instr} (ho : fieldOp w = 0x8#4) (h : decodeAlu w = .ok i) :
    encode i = w := by
  have hw := word_eq_nibbles w
  rw [ho, ← ofNat_fieldN_toNat] at hw
  unfold decodeAlu at h
  split at h <;> cases h
  all_goals
    next hn => rwa [hn] at hw

theorem encode_of_decodeKey {w : Word} {i : Instr} (ho : fieldOp w = 0xE#4) (h : decodeKey w = .ok i) :
    encode i = w := by
  have hw := fieldOp_append_fieldX_append_fieldKK w
  rw [ho] at hw
  unfold decodeKey at h
  split_ifs at h with hk hk <;> cases h <;> rwa [hk] at hw

theorem encode_of_decodeMisc {w : Word} {i : Instr} (ho : fieldOp w = 0xF#4) (h : decodeMisc w = .ok i) :
    encode i = w := by
  have hw := fieldOp_append_fieldX_append_fieldKK w
  rw [ho] at hw
  unfold decodeMisc at h
  split_ifs at h with hk hk hk hk hk hk hk hk hk <;> cases h <;> rwa [hk] at hw

/-- A word that decodes is the word of what it decodes to: each family keeps every field. -/
theorem encode_of_decodeWord {w : Word} {i : Instr} (h : decodeWord w = .ok i) : encode i = w := by
  have ha := fieldOp_append_fieldNNN w
  have hk := fieldOp_append_fieldX_append_fieldKK w
  have hr := word_eq_nibbles w
  rw [← ofNat_fieldOp_toNat] at ha hk hr
  unfold decodeWord at h
  split at h
  case h_1 => exact encode_of_decodeZero h
  case h_2 ho | h_3 ho | h_11 ho | h_12 ho => cases h; rwa [ho] at ha
  case h_4 ho | h_5 ho | h_7 ho | h_8 ho | h_13 ho => cases h; rwa [ho] at hk
  case h_6 ho | h_10 ho | h_14 ho => cases h; rwa [ho] at hr
  case h_9 ho => exact encode_of_decodeAlu (BitVec.eq_of_toNat_eq ho) h
  case h_15 ho => exact encode_of_decodeKey (BitVec.eq_of_toNat_eq ho) h
  case h_16 =>
    have ho : (fieldOp w).toNat = 0xF := by grind
    exact encode_of_decodeMisc (BitVec.eq_of_toNat_eq ho) h

theorem decode_of_ok {hi lo : Byte} {i : Instr} (h : decodeWord (wordOfBytes hi lo) = .ok i) (rest : List Byte) :
    decode (hi :: lo :: rest) = .ok (i, rest) := by
  rw [decode, h]

theorem decode_of_error {hi lo : Byte} {e : DecodeError} (h : decodeWord (wordOfBytes hi lo) = .error e)
    (rest : List Byte) : decode (hi :: lo :: rest) = .error e := by
  rw [decode, h]

theorem decode_encodeBytes_append (i : Instr) (rest : List Byte) : decode (encodeBytes i ++ rest) = .ok (i, rest) :=
  decode_of_ok (by rw [wordOfBytes_split, decodeWord_encode]) rest

/-- Settles O8: the fields are read back as they were laid down, from the word and from its bytes, and no field of a
word that decodes is lost. -/
theorem decodeAndEncodeAgree : Obligations.DecodeAndEncodeAgree :=
  ⟨decodeWord_encode, decode_encodeBytes_append, fun _ _ => encode_of_decodeWord⟩

/-- Settles O9: each word is the word of its instruction. -/
theorem specWordsDecode : Obligations.SpecWordsDecode :=
  ⟨decodeWord_encode .cls, decodeWord_encode .ret, decodeWord_encode (.call 0xABC), decodeWord_encode (.jpV0 0xFFF),
    decodeWord_encode (.seReg 1 2 0xF), decodeWord_encode (.addImm 1 0xFF), decodeWord_encode (.rnd 3 0x0F),
    decodeWord_encode (.drw 0 1 0xF), decodeWord_encode (.shl 1 0), decodeWord_encode (.sknp 5),
    decodeWord_encode (.ldVKey 2), decodeWord_encode (.load 2)⟩

/-! ### The opcode map (spec 30 R65) -/

open Sys2Proof.Laws

/-- The word of every instruction matches its row, and the row is one of the map. -/
theorem encodingRow : ∀ i : Instr, EncodingRow.Statement i
  | .cls => EncodingRow.cls
  | .ret => EncodingRow.ret
  | .jp nnn => EncodingRow.jp nnn
  | .jpV0 nnn => EncodingRow.jpV0 nnn
  | .call nnn => EncodingRow.call nnn
  | .seImm x kk => EncodingRow.seImm x kk
  | .sneImm x kk => EncodingRow.sneImm x kk
  | .seReg x y d => EncodingRow.seReg x y d
  | .sneReg x y d => EncodingRow.sneReg x y d
  | .ldImm x kk => EncodingRow.ldImm x kk
  | .addImm x kk => EncodingRow.addImm x kk
  | .ldI nnn => EncodingRow.ldI nnn
  | .rnd x kk => EncodingRow.rnd x kk
  | .drw x y n => EncodingRow.drw x y n
  | .ldReg x y => EncodingRow.ldReg x y
  | .orReg x y => EncodingRow.orReg x y
  | .andReg x y => EncodingRow.andReg x y
  | .xorReg x y => EncodingRow.xorReg x y
  | .addReg x y => EncodingRow.addReg x y
  | .subReg x y => EncodingRow.subReg x y
  | .shr x y => EncodingRow.shr x y
  | .subnReg x y => EncodingRow.subnReg x y
  | .shl x y => EncodingRow.shl x y
  | .skp x => EncodingRow.skp x
  | .sknp x => EncodingRow.sknp x
  | .ldVDt x => EncodingRow.ldVDt x
  | .ldVKey x => EncodingRow.ldVKey x
  | .ldDtV x => EncodingRow.ldDtV x
  | .ldStV x => EncodingRow.ldStV x
  | .addI x => EncodingRow.addI x
  | .ldFont x => EncodingRow.ldFont x
  | .bcd x => EncodingRow.bcd x
  | .store x => EncodingRow.store x
  | .load x => EncodingRow.load x

theorem row_of_decodeWord {w : Word} {i : Instr} (h : decodeWord w = .ok i) :
    w &&& i.row.mask = i.row.value := by
  rw [← encode_of_decodeWord h]
  exact eq_of_beq (encodingRow i).1

/-- A mask that covers a field compares that field. -/
theorem extractLsb'_of_and {a n : Nat} {w m v : Word} (hm : m.extractLsb' a n = BitVec.allOnes n)
    (h : w &&& m = v) : w.extractLsb' a n = v.extractLsb' a n := by
  rw [← h, BitVec.extractLsb'_and, hm, BitVec.and_allOnes]

theorem fieldOp_of_and {w m v : Word} (hm : fieldOp m = BitVec.allOnes 4) (h : w &&& m = v) :
    fieldOp w = fieldOp v := extractLsb'_of_and hm h

theorem fieldN_of_and {w m v : Word} (hm : fieldN m = BitVec.allOnes 4) (h : w &&& m = v) :
    fieldN w = fieldN v := extractLsb'_of_and hm h

theorem fieldKK_of_and {w m v : Word} (hm : fieldKK m = BitVec.allOnes 8) (h : w &&& m = v) :
    fieldKK w = fieldKK v := extractLsb'_of_and hm h

/-- A word that matches a row has its opcode and selector, so it decodes to an instruction of that row. -/
theorem decodeWord_of_row {w : Word} {i : Instr} (h : w &&& i.row.mask = i.row.value) :
    ∃ j, decodeWord w = .ok j ∧ j.row = i.row := by
  cases i with
  | cls | ret =>
    have hw : w = _ := (BitVec.and_allOnes (x := w)).symm.trans h
    rw [hw]
    exact ⟨_, rfl, rfl⟩
  | jp | jpV0 | call | ldI | seImm | sneImm | ldImm | addImm | rnd | seReg | sneReg | drw =>
    dsimp only [Instr.row] at h
    refine ⟨_, by rw [decodeWord, fieldOp_of_and rfl h]; rfl, ?_⟩; rfl
  | ldReg | orReg | andReg | xorReg | addReg | subReg | shr | subnReg | shl =>
    dsimp only [Instr.row] at h
    refine ⟨_, by rw [decodeWord_of_op_alu (fieldOp_of_and rfl h), decodeAlu, fieldN_of_and rfl h]; rfl, ?_⟩; rfl
  | skp | sknp =>
    dsimp only [Instr.row] at h
    refine ⟨_, by rw [decodeWord_of_op_key (fieldOp_of_and rfl h), decodeKey, fieldKK_of_and rfl h]; rfl, ?_⟩; rfl
  | ldVDt | ldVKey | ldDtV | ldStV | addI | ldFont | bcd | store | load =>
    dsimp only [Instr.row] at h
    refine ⟨_, by rw [decodeWord_of_op_misc (fieldOp_of_and rfl h), decodeMisc, fieldKK_of_and rfl h]; rfl, ?_⟩; rfl

/-- Settles O7: a decoded word is the word of its instruction, which its row matches; a word a row matches has that
row's selectors, which choose the instruction. -/
theorem opcodeMapDecidesDecoding : Obligations.OpcodeMapDecidesDecoding :=
  ⟨fun _ _ => row_of_decodeWord, fun _ _ => decodeWord_of_row, fun i => (encodingRow i).2, rfl⟩

/-! ### The words that are no instruction (spec 30 R66) -/

theorem decodeZero_eq_error {w : Word} {e : DecodeError} :
    decodeZero w = .error e ↔ e = .illegalZero ∧ w ≠ 0x00E0#16 ∧ w ≠ 0x00EE#16 := by
  unfold decodeZero
  split_ifs with h1 h2 <;> simp [*, eq_comm (a := e)]

theorem decodeKey_eq_error {w : Word} {e : DecodeError} :
    decodeKey w = .error e ↔ e = .illegalKey ∧ fieldKK w ∉ [0x9E#8, 0xA1#8] := by
  unfold decodeKey
  split_ifs <;> simp [*, eq_comm (a := e)]

theorem decodeMisc_eq_error {w : Word} {e : DecodeError} :
    decodeMisc w = .error e ↔ e = .illegalMisc ∧
      fieldKK w ∉ [0x07#8, 0x0A#8, 0x15#8, 0x18#8, 0x1E#8, 0x29#8, 0x33#8, 0x55#8, 0x65#8] := by
  unfold decodeMisc
  split_ifs <;> simp [*, eq_comm (a := e)]

theorem decodeAlu_eq_error {w : Word} {e : DecodeError} :
    decodeAlu w = .error e ↔ e = .illegalAlu ∧
      (fieldN w).toNat ∈ [0x8, 0x9, 0xA, 0xB, 0xC, 0xD, 0xF] := by
  unfold decodeAlu
  split
  case h_10 =>
    have hlt := (fieldN w).isLt
    have hn : (fieldN w).toNat ∈ [0x8, 0x9, 0xA, 0xB, 0xC, 0xD, 0xF] := by
      simp only [List.mem_cons, List.not_mem_nil, or_false]
      grind
    simp only [hn, and_true, Except.error.injEq, eq_comm (a := e)]
  all_goals next hn => simp [hn]

/-- The families that refuse a word are 0, 8, E and F. -/
theorem decodeWord_eq_error {w : Word} {e : DecodeError} :
    decodeWord w = .error e ↔
      ((fieldOp w).toNat = 0x0 ∧ decodeZero w = .error e) ∨ ((fieldOp w).toNat = 0x8 ∧ decodeAlu w = .error e) ∨
      ((fieldOp w).toNat = 0xE ∧ decodeKey w = .error e) ∨ ((fieldOp w).toNat = 0xF ∧ decodeMisc w = .error e) := by
  unfold decodeWord
  split
  case h_16 =>
    have hlt := (fieldOp w).isLt
    have ho : (fieldOp w).toNat = 0xF := by grind
    simp [ho]
  all_goals next ho => simp [ho]

/-- Settles O6: a word is refused by its family alone, under that family's name, and each family's selectors are its
rows'; the fields are read as quotients and remainders of the word. -/
theorem illegalWordsAreTheFourClasses : Obligations.IllegalWordsAreTheFourClasses := by
  intro w
  simp only [← fieldOp_toNat, ← fieldN_toNat, ← fieldKK_toNat]
  refine ⟨?_, ?_, ?_, ?_, ?_⟩ <;>
    simp [decodeWord_eq_error, decodeZero_eq_error, decodeAlu_eq_error, decodeKey_eq_error, decodeMisc_eq_error,
      ← BitVec.toNat_inj]

end Sys2Proof

namespace Sys2Proof.Machine

/-! ### The fetch (spec 30 R60) -/

/-- The fetch at a PC above 0xFFE faults with the lowest address outside (spec 30 R60). -/
theorem State.fetch_of_gt {s : State} (hp : 0xFFE < s.pc.toNat) :
    s.fetch = .error ⟨.memBounds, BitVec.ofNat 16 (max s.pc.toNat 4096)⟩ := by
  rw [State.fetch, boundsCheck_eq_some.mpr ⟨by omega, by omega, rfl⟩]

/-- Settles O3: the fetch above and up to 0xFFE, and the two bytes a decoding takes. -/
theorem fetchIsBoundedAndBigEndian : Obligations.FetchIsBoundedAndBigEndian := by
  refine ⟨fun s hp => ?_, fun s hp => ?_, fun s => State.fetch_of_le,
    fun hi lo rest => ⟨fun i h => decode_of_ok h rest, fun e h => decode_of_error h rest⟩⟩
  · rw [State.fetch_of_gt (by omega), Nat.max_eq_left hp, BitVec.ofNat_toNat, BitVec.setWidth_eq]
  · rw [State.fetch_of_gt (by rw [hp]; decide), hp]; rfl

end Sys2Proof.Machine

/-! SUPPORT and PROOFS. The statements of 40_control.md, and 70 R257: where an instruction goes on, clear screen, call and
return, the jumps, the skips on registers and immediates. -/

namespace Sys2Proof.Machine

/-! ### An instruction by what its check found, and frames (spec 60 R209) -/

theorem exec_of_checkOf_none {i : Instr} {s : State} (h : s.checkOf i = none) : exec i s = .next (s.effectOf i) := by
  rw [exec_eq_afterCheck, h, State.afterCheck_none]

theorem exec_of_checkOf_some {i : Instr} {s : State} {r : Trap} (h : s.checkOf i = some r) :
    exec i s = .next (s.raise r) := by
  rw [exec_eq_afterCheck, h, State.afterCheck_some]

theorem AgreeOn.trans {s t u : State} {p : Part} (h : AgreeOn s t p) (h' : AgreeOn t u p) : AgreeOn s u p := by
  cases p with
  | regs | memory | keys => exact fun a => (h' a).trans (h a)
  | stack | keyWait =>
    obtain ⟨h1, h2⟩ := h
    obtain ⟨h1', h2'⟩ := h'
    exact ⟨h1'.trans h1, h2'.trans h2⟩
  | faults =>
    obtain ⟨hc, hi, hp⟩ := h
    obtain ⟨hc', hi', hp'⟩ := h'
    exact ⟨hc'.trans hc, hi'.trans hi, hp'.trans hp⟩
  | _ => exact Eq.trans h' h

theorem OnlyChanges.trans {ps : List Part} {s t u : State} (h : OnlyChanges ps s t) (h' : OnlyChanges ps t u) :
    OnlyChanges ps s u := fun p hp => (h p hp).trans (h' p hp)

theorem State.setPc_onlyChanges (s : State) (w : Word) : OnlyChanges [.pc] s (s.setPc w) := by
  simp [OnlyChanges, Part.forall_iff, AgreeOn]

/-! ### Zero extension keeps the value (spec 30 R63) -/

@[simp] theorem zextAddr_toNat (nnn : Addr12) : (zextAddr nnn).toNat = nnn.toNat := by
  have := nnn.isLt
  simp [zextAddr]
  omega

@[simp] theorem zextByte_toNat (b : Byte) : (zextByte b).toNat = b.toNat := by
  have := b.isLt
  simp [zextByte]
  omega

/-! ### Where an instruction goes on (spec 40 R80) -/

theorem State.effectOf_pc_of_sequential {s : State} {i : Instr} (h : sequential i = true) :
    (s.effectOf i).pc = s.pc + 2 := by
  cases i with
  | ret | jp | jpV0 | call | seImm | sneImm | seReg | sneReg | skp | sknp | ldVKey => cases h
  | drw => simp [State.effectOf, State.finishDraw]
  | cls | load => simp [State.effectOf]
  | _ => rfl

/-- Settles O10: the effect leaves PC + 2, and the only other end is a fault. -/
theorem sequentialInstructionsAdvanceByTwo : Obligations.SequentialInstructionsAdvanceByTwo := by
  intro i s t hseq _ h hrun
  rcases exec_cases h with ⟨r, -, rfl⟩ | ⟨-, rfl⟩
  · exact absurd (s.enterFault_run r s.pc) hrun
  · exact State.effectOf_pc_of_sequential hseq

/-! ### Clear screen (spec 40 R81) -/

theorem Screen.eq_blank_iff {f : Screen} : f = Screen.blank ↔ ∀ u v, Screen.at f u v = false := by
  constructor
  · rintro rfl
    exact Screen.at_blank
  · intro h
    exact Screen.ext_at fun u v _ _ => by rw [h, Screen.at_blank]

theorem State.effectOf_cls_onlyChanges (s : State) :
    OnlyChanges [.screen, .dirty, .updates, .pc] s (s.effectOf .cls) := by
  simp [OnlyChanges, Part.forall_iff, AgreeOn, State.effectOf]

/-- Settles O13: the strobe follows whether the screen was blank, and blank is having no lit pixel. -/
theorem clearScreenResult : Obligations.ClearScreenResult := by
  refine ⟨decodeWord_encode .cls, fun s => ⟨s.effectOf .cls, exec_of_checkOf_none rfl, ?_, ?_, ?_, ?_, ?_⟩⟩
  · simp [State.effectOf]
  · rintro ⟨u, v, hlit⟩
    have hb : s.fb ≠ Screen.blank := fun hb => by simp [hb] at hlit
    simp [State.effectOf, hb]
  · intro hdark
    have hb : s.fb = Screen.blank := Screen.eq_blank_iff.mpr hdark
    simp [State.effectOf, hb]
  · exact State.effectOf_pc_of_sequential rfl
  · exact s.effectOf_cls_onlyChanges

/-! ### Call and return (spec 40 R82, R85, 60 R202, R203) -/

theorem State.effectOf_ret_onlyChanges (s : State) : OnlyChanges [.pc, .stack] s (s.effectOf .ret) := by
  simp [OnlyChanges, Part.forall_iff, AgreeOn, State.effectOf, State.getV, State.getKey]

theorem State.effectOf_call_onlyChanges (s : State) (nnn : Addr12) :
    OnlyChanges [.pc, .stack] s (s.effectOf (.call nnn)) := by
  simp [OnlyChanges, Part.forall_iff, AgreeOn, State.effectOf, State.getV, State.getKey]

/-- The return goes to the entry on top of the stack. -/
theorem State.effectOf_ret_pc (s : State) : s.stack[s.sp.val - 1]? = some (s.effectOf .ret).pc :=
  Vector.getElem?_eq_getElem _

/-- A call writes the entry SP counts up to, and no other. -/
theorem State.effectOf_call_stack {s : State} (nnn : Addr12) (h : s.sp.val < 16) (j : Nat) :
    (s.effectOf (.call nnn)).stack[j]? = if s.sp.val = j then some (s.pc + 2) else s.stack[j]? := by
  simp [State.effectOf, Vector.getElem?_setIfInBounds, h]

theorem State.effectOf_call_sp {s : State} (nnn : Addr12) (h : s.sp.val < 16) :
    (s.effectOf (.call nnn)).sp.val = s.sp.val + 1 := Nat.min_eq_left h

/-- Settles O14: with an entry in use the check finds nothing, with none it is the fault. -/
theorem returnResult : Obligations.ReturnResult := by
  refine ⟨decodeWord_encode .ret, fun s => ⟨fun hsp => ?_, fun hsp => ?_⟩⟩
  · have hc : s.checkOf .ret = none := if_neg (by omega)
    exact ⟨_, exec_of_checkOf_none hc, rfl, s.effectOf_ret_pc, rfl, s.effectOf_ret_onlyChanges⟩
  · have hc : s.checkOf .ret = some ⟨.stackUnderflow, 0x00EE⟩ := if_pos hsp
    exact ⟨_, exec_of_checkOf_some hc, s.raise_faultsWith _ _⟩

/-- Settles O15: with fewer than sixteen entries in use the check finds nothing, with sixteen it is the fault. -/
theorem callResult : Obligations.CallResult := by
  intro s nnn
  refine ⟨decodeWord_encode (.call nnn), fun hsp => ?_, fun hsp => ?_⟩
  · have hc : s.checkOf (.call nnn) = none := if_neg (by omega)
    refine ⟨_, exec_of_checkOf_none hc, State.effectOf_call_sp nnn hsp, ?_, fun j hj => ?_, zextAddr_toNat nnn,
      s.effectOf_call_onlyChanges nnn⟩
    · rw [State.effectOf_call_stack nnn hsp, if_pos rfl]
    · rw [State.effectOf_call_stack nnn hsp, if_neg hj.symm]
  · have hc : s.checkOf (.call nnn) = some ⟨.stackOverflow, 0x2#4 ++ nnn⟩ := if_pos hsp
    exact ⟨_, exec_of_checkOf_some hc, s.raise_faultsWith _ _⟩

/-- Settles O16: the call leaves an entry in use, so the return pops it, and it is the one the call pushed. -/
theorem callThenReturnComesBack : Obligations.CallThenReturnComesBack := by
  intro s nnn hsp
  obtain ⟨-, hcall, -⟩ := callResult s nnn
  obtain ⟨t, ht, htsp, htop, -, -, hst⟩ := hcall hsp
  obtain ⟨hret, -⟩ := returnResult.2 t
  obtain ⟨u, hu, husp, hpc, -, htu⟩ := hret (by omega)
  rw [htsp, Nat.add_sub_cancel] at hpc husp
  exact ⟨t, u, ht, hu, Option.some.inj (hpc.symm.trans htop), Fin.ext husp, hst.trans htu⟩

/-! ### Jumps (spec 40 R83, R84, 70 R257) -/

/-- No sum wraps: the largest, 0xFFF + 0xFF, fits in 16 bits. -/
theorem zextAddr_add_zextByte_toNat (nnn : Addr12) (b : Byte) :
    (zextAddr nnn + zextByte b).toNat = nnn.toNat + b.toNat := by
  have := nnn.isLt
  have := b.isLt
  rw [BitVec.toNat_add, zextAddr_toNat, zextByte_toNat]
  omega

/-- Settles O17: both jumps write PC alone, and neither sum is reduced. -/
theorem jumpResults : Obligations.JumpResults := fun s nnn =>
  ⟨decodeWord_encode (.jp nnn), decodeWord_encode (.jpV0 nnn),
    ⟨_, exec_of_checkOf_none rfl, zextAddr_toNat nnn, s.setPc_onlyChanges _⟩,
    ⟨_, exec_of_checkOf_none rfl, zextAddr_add_zextByte_toNat nnn _, s.setPc_onlyChanges _⟩⟩

/-- Settles O57: the step is the jump, which writes PC with the value it has. -/
theorem jumpToSelfChangesNothing : Obligations.JumpToSelfChangesNothing := by
  intro s u nnn hs hr hc hpc hle hd
  have hself : zextAddr nnn = u.pc := BitVec.eq_of_toNat_eq (by rw [zextAddr_toNat, hpc])
  have heff : u.effectOf (.jp nnn) = u := by rw [State.effectOf, hself]; rfl
  rw [State.step_eq_exec hs hr hc (by omega) hd, exec_of_checkOf_none rfl, heff]

/-! ### Skips on an immediate and on a register (spec 40 R86 to R89, 30 R67) -/

theorem State.skipIf_onlyChanges (s : State) (c : Bool) : OnlyChanges [.pc] s (s.skipIf c) := s.setPc_onlyChanges _

theorem State.skipIf_beq_pc (s : State) (a b : Byte) :
    (s.skipIf (a == b)).pc = if a = b then s.pc + 4 else s.pc + 2 := by simp

theorem State.skipIf_bne_pc (s : State) (a b : Byte) :
    (s.skipIf (a != b)).pc = if a = b then s.pc + 2 else s.pc + 4 := by
  by_cases h : a = b <;> simp [h]

/-- Settles O18: a skip writes PC alone, by the comparison with the immediate. -/
theorem skipImmediateResults : Obligations.SkipImmediateResults := fun s x kk =>
  ⟨decodeWord_encode (.seImm x kk), decodeWord_encode (.sneImm x kk),
    ⟨_, exec_of_checkOf_none rfl, s.skipIf_beq_pc _ _, s.skipIf_onlyChanges _⟩,
    ⟨_, exec_of_checkOf_none rfl, s.skipIf_bne_pc _ _, s.skipIf_onlyChanges _⟩⟩

/-- Settles O19: a skip writes PC alone, by the comparison of the two registers; its proof does not look at `d`. -/
theorem skipRegisterResults : Obligations.SkipRegisterResults := fun s x y d =>
  ⟨decodeWord_encode (.seReg x y d), decodeWord_encode (.sneReg x y d),
    ⟨_, exec_of_checkOf_none rfl, s.skipIf_beq_pc _ _, s.skipIf_onlyChanges _⟩,
    ⟨_, exec_of_checkOf_none rfl, s.skipIf_bne_pc _ _, s.skipIf_onlyChanges _⟩⟩

end Sys2Proof.Machine

/-! SUPPORT and PROOFS. The statements of 41_const_index_random.md: load and add immediate, set index, random. -/

namespace Sys2Proof.Machine

/-! ### One register written (spec 10 R10, 40 R80) -/

theorem State.setV_onlyRegs (s : State) (x : Nibble) (b : Byte) : OnlyRegs [x] s (s.setV x b) := by
  intro r hr
  rw [State.getV_setV, if_neg (List.ne_of_not_mem_cons hr)]

theorem State.setV_advance_onlyChanges (s : State) (x : Nibble) (b : Byte) :
    OnlyChanges [.regs, .pc] s (s.setV x b).advance := by
  simp [OnlyChanges, Part.forall_iff, AgreeOn]

/-- An instruction that writes V[x] and goes on at PC + 2 does no more: no flag, no other piece of state. -/
theorem result_of_exec_eq_setV_advance {i : Instr} {s : State} {x : Nibble} {b : Byte}
    (h : exec i s = .next (s.setV x b).advance) :
    ∃ t, exec i s = .next t ∧ t.getV x = b ∧ OnlyRegs [x] s t ∧ t.pc = s.pc + 2 ∧ OnlyChanges [.regs, .pc] s t :=
  ⟨_, h, s.getV_setV_same x b, s.setV_onlyRegs x b, rfl, s.setV_advance_onlyChanges x b⟩

/-- Settles O20: both write V[x] alone, and the addition of bytes is the sum mod 256. -/
theorem immediateResults : Obligations.ImmediateResults := by
  intro s x kk
  obtain ⟨t, ht, hsum, hframe⟩ : ∃ t, exec (.addImm x kk) s = .next t ∧ t.getV x = s.getV x + kk ∧ _ :=
    result_of_exec_eq_setV_advance (exec_of_checkOf_none rfl)
  exact ⟨decodeWord_encode (.ldImm x kk), decodeWord_encode (.addImm x kk),
    result_of_exec_eq_setV_advance (exec_of_checkOf_none rfl), t, ht, by rw [hsum, BitVec.toNat_add], hframe⟩

/-! ### Set index (spec 41 R102) -/

theorem State.setI_advance_onlyChanges (s : State) (w : Word) : OnlyChanges [.index, .pc] s (s.setI w).advance := by
  simp [OnlyChanges, Part.forall_iff, AgreeOn]

/-- Settles O21: I takes the zero-extended NNN, which keeps its value. -/
theorem setIndexResult : Obligations.SetIndexResult := fun s nnn =>
  ⟨decodeWord_encode (.ldI nnn), _, exec_of_checkOf_none rfl, zextAddr_toNat nnn, rfl, s.setI_advance_onlyChanges _⟩

/-! ### Random (spec 41 R103) -/

theorem State.effectOf_rnd_onlyChanges (s : State) (x : Nibble) (kk : Byte) :
    OnlyChanges [.regs, .pc, .rand] s (s.effectOf (.rnd x kk)) := by
  simp [OnlyChanges, Part.forall_iff, AgreeOn, State.effectOf]

/-- Settles O22: the free byte is masked before it is counted, so the next execution samples the one after it; the
proof does not look at the byte. -/
theorem randomResult : Obligations.RandomResult := fun s x kk =>
  ⟨decodeWord_encode (.rnd x kk), _, exec_of_checkOf_none rfl, s.getV_setV_same x _, rfl, s.setV_onlyRegs x _, rfl,
    s.effectOf_rnd_onlyChanges x kk⟩

end Sys2Proof.Machine

/-! SUPPORT and PROOFS. The statements of 42_draw.md: the pixels a sprite toggles, and draw sprite. -/

namespace Sys2Proof.Machine

/-! ### Where a sprite has its bits of 1 (spec 42 R111) -/

/-- `covers` at an origin that is on the grid already, so that a sprite can be followed row by row from any row down;
`covers_eq_coversFrom` ties it to `covers`. -/
def coversFrom (x0 y0 : Nat) (sprite : List Byte) (u v : Nat) : Bool :=
  decide (x0 ≤ u) && decide (u < x0 + 8) && decide (u < 64) &&
  decide (y0 ≤ v) && decide (v < y0 + sprite.length) && decide (v < 32) &&
  (sprite.getD (v - y0) 0).getLsbD (7 - (u - x0))

theorem covers_eq_coversFrom (x y : Byte) (sprite : List Byte) :
    covers x y sprite = coversFrom (x.toNat % 64) (y.toNat % 32) sprite := rfl

@[simp] theorem coversFrom_nil (x0 y0 u v : Nat) : coversFrom x0 y0 [] u v = false := by
  simp only [coversFrom, Bool.and_eq_false_iff, decide_eq_false_iff_not, List.length_nil]
  omega

theorem coversFrom_singleton (x0 y0 : Nat) (b : Byte) (u v : Nat) :
    coversFrom x0 y0 [b] u v = (decide (x0 ≤ u) && decide (u < x0 + 8) && b.getLsbD (7 - (u - x0)) &&
      decide (v = y0) && decide (u < 64) && decide (v < 32)) := by
  by_cases hv : v = y0
  · subst hv
    simp [coversFrom, Bool.and_assoc, Bool.and_comm, Bool.and_left_comm]
  · have hrow : ¬ (y0 ≤ v ∧ v < y0 + 1) := by omega
    simp_all [coversFrom]

/-- The first row of a sprite is over row y0, the others are the sprite of the rest from row y0 + 1 down. -/
theorem coversFrom_cons (x0 y0 : Nat) (b : Byte) (bs : List Byte) (u v : Nat) :
    coversFrom x0 y0 (b :: bs) u v = (coversFrom x0 y0 [b] u v || coversFrom x0 (y0 + 1) bs u v) := by
  rcases Nat.lt_trichotomy v y0 with hv | rfl | hv
  · simp [coversFrom, Nat.not_le.mpr hv, Nat.not_le.mpr (Nat.lt_succ_of_lt hv)]
  · simp [coversFrom]
  · obtain ⟨j, rfl⟩ : ∃ j, v = y0 + 1 + j := ⟨v - (y0 + 1), by omega⟩
    have hj : y0 + 1 + j - y0 = j + 1 := by omega
    have hlen : y0 + 1 + j < y0 + (bs.length + 1) ↔ y0 + 1 + j < y0 + 1 + bs.length := by omega
    have hle : y0 ≤ y0 + 1 + j := by omega
    simp [coversFrom, hj, hlen, hle]

/-- No pixel is under the first row of a sprite and under another one. -/
theorem coversFrom_succ_of_singleton {x0 y0 : Nat} {b : Byte} {u v : Nat} (bs : List Byte)
    (h : coversFrom x0 y0 [b] u v = true) : coversFrom x0 (y0 + 1) bs u v = false := by
  rw [coversFrom_singleton] at h
  obtain rfl : v = y0 := by simp_all
  simp [coversFrom]

/-! ### Pixels toggled, each once (spec 42 R111) -/

/-- From d to e the pixels of P are toggled: each one once, a collision if one of them was set, a change if there is
one. -/
structure DrawState.Toggles (P : Nat → Nat → Bool) (d e : DrawState) : Prop where
  pixel : ∀ u v, Screen.at e.fb u v = (Screen.at d.fb u v ^^ P u v)
  collision : e.collision = true ↔ d.collision = true ∨ ∃ u v, P u v = true ∧ Screen.at d.fb u v = true
  changed : e.changed = true ↔ d.changed = true ∨ ∃ u v, P u v = true

theorem DrawState.Toggles.refl (d : DrawState) : DrawState.Toggles (fun _ _ => false) d d :=
  ⟨by simp, by simp, by simp⟩

/-- Two sets of pixels toggled one after the other are their union toggled, if no pixel is in both: the second set then
meets its pixels as they were at the start. -/
theorem DrawState.Toggles.trans {P Q : Nat → Nat → Bool} {d e f : DrawState} (h : DrawState.Toggles P d e)
    (h' : DrawState.Toggles Q e f) (hd : ∀ u v, P u v = true → Q u v = false) :
    DrawState.Toggles (fun u v => P u v || Q u v) d f := by
  have hxor : ∀ u v, (P u v || Q u v) = (P u v ^^ Q u v) := fun u v => by
    cases hp : P u v
    · simp
    · simp [hd u v hp]
  have hat : ∀ u v, Q u v = true → Screen.at e.fb u v = Screen.at d.fb u v := fun u v hq => by
    have hp : P u v = false := Bool.eq_false_iff.mpr fun hp => Bool.eq_false_iff.mp (hd u v hp) hq
    rw [h.pixel, hp, Bool.xor_false]
  have hset : (∃ u v, Q u v = true ∧ Screen.at e.fb u v = true) ↔ ∃ u v, Q u v = true ∧ Screen.at d.fb u v = true :=
    exists_congr fun u => exists_congr fun v => and_congr_right fun hq => by rw [hat u v hq]
  refine ⟨fun u v => ?_, ?_, ?_⟩
  · rw [h'.pixel, h.pixel, hxor, Bool.xor_assoc]
  · rw [h'.collision, h.collision, hset]
    simp only [Bool.or_eq_true, or_and_right, exists_or, or_assoc]
  · rw [h'.changed, h.changed]
    simp only [Bool.or_eq_true, exists_or, or_assoc]

theorem DrawState.row_toggles (d : DrawState) (x0 y0 : Nat) (b : Byte) :
    DrawState.Toggles (coversFrom x0 y0 [b]) d (d.row x0 y0 b) := by
  obtain ⟨hpixel, hcollision, hchanged⟩ := DrawState.row_spec d x0 y0 b
  have hcover : ∀ u v, coversFrom x0 y0 [b] u v = true ↔
      ∃ c, c < 8 ∧ b.getLsbD (7 - c) = true ∧ x0 + c < 64 ∧ y0 < 32 ∧ u = x0 + c ∧ v = y0 := by
    intro u v
    simp only [coversFrom_singleton, Bool.and_eq_true, decide_eq_true_eq]
    constructor
    · rintro ⟨⟨⟨⟨⟨hl, hr⟩, hb⟩, rfl⟩, hu⟩, hv⟩
      exact ⟨u - x0, by omega, hb, by omega, hv, by omega, rfl⟩
    · rintro ⟨c, hc, hb, hu, hv, rfl, rfl⟩
      exact ⟨⟨⟨⟨⟨by omega, by omega⟩, by rwa [Nat.add_sub_cancel_left]⟩, rfl⟩, hu⟩, hv⟩
  refine ⟨fun u v => ?_, hcollision.trans (or_congr_right ?_), hchanged.trans (or_congr_right ?_)⟩
  · rw [hpixel, coversFrom_singleton]
  · simp only [hcover]
    constructor
    · rintro ⟨c, hc, hb, hu, hv, hset⟩
      exact ⟨_, _, ⟨c, hc, hb, hu, hv, rfl, rfl⟩, hset⟩
    · rintro ⟨_, _, ⟨c, hc, hb, hu, hv, rfl, rfl⟩, hset⟩
      exact ⟨c, hc, hb, hu, hv, hset⟩
  · simp only [hcover]
    constructor
    · rintro ⟨c, hc, hb, hu, hv⟩
      exact ⟨_, _, c, hc, hb, hu, hv, rfl, rfl⟩
    · rintro ⟨_, _, c, hc, hb, hu, hv, rfl, rfl⟩
      exact ⟨c, hc, hb, hu, hv⟩

theorem DrawState.rows_toggles (x0 y0 : Nat) (sprite : List Byte) (d : DrawState) :
    DrawState.Toggles (coversFrom x0 y0 sprite) d (DrawState.rows x0 y0 d sprite) := by
  induction sprite generalizing y0 d with
  | nil =>
    rw [funext₂ (coversFrom_nil x0 y0)]
    exact DrawState.Toggles.refl d
  | cons b bs ih =>
    rw [funext₂ (coversFrom_cons x0 y0 b bs)]
    exact (d.row_toggles x0 y0 b).trans (ih (y0 + 1) _) fun _ _ => coversFrom_succ_of_singleton bs

/-- Draw begins with no collision and no change (spec 42 R111). -/
theorem Screen.draw_toggles (fb : Screen) (x y : Byte) (sprite : List Byte) :
    DrawState.Toggles (covers x y sprite) ⟨fb, false, false⟩ (Screen.draw fb x y sprite) :=
  DrawState.rows_toggles _ _ sprite _

/-- Settles O23: the rows cover disjoint pixels, so drawing them one after the other toggles their union. -/
theorem drawTogglesCoveredPixels : Obligations.DrawTogglesCoveredPixels := by
  intro fb x y sprite
  obtain ⟨hpixel, hcollision, hchanged⟩ := Screen.draw_toggles fb x y sprite
  exact ⟨hpixel, by simpa using hcollision, by simpa using hchanged⟩

/-! ### Draw sprite (spec 42 R110, R112) -/

theorem Memory.readBytes_eq_map (m : Memory) (a n : Nat) :
    Memory.readBytes m a n = (List.range n).map fun r => Memory.read m (a + r) := by
  induction n generalizing a with
  | zero => rfl
  | succ n ih =>
    rw [Memory.readBytes, ih, List.range_succ_eq_map]
    simp [Nat.add_assoc, Nat.add_comm 1]

@[simp] theorem State.finishDraw_fb (s : State) (d : DrawState) : (s.finishDraw d).fb = d.fb := by
  simp [State.finishDraw]
@[simp] theorem State.finishDraw_pc (s : State) (d : DrawState) : (s.finishDraw d).pc = s.pc + 2 := by
  simp [State.finishDraw]

/-- One strobe, which clears DIRTY, exactly if the draw changed a pixel. -/
theorem State.finishDraw_strobe (s : State) (d : DrawState) :
    (s.finishDraw d).fbUpdates = (if d.changed then s.fbUpdates + 1 else s.fbUpdates) ∧
    (s.finishDraw d).dirty = (if d.changed then false else s.dirty) := by
  simp [State.finishDraw]

theorem State.finishDraw_onlyRegs (s : State) (d : DrawState) : OnlyRegs [15] s (s.finishDraw d) := by
  intro r hr
  rw [State.getV_finishDraw, if_neg (List.ne_of_not_mem_cons hr)]

theorem State.finishDraw_onlyChanges (s : State) (d : DrawState) :
    OnlyChanges [.regs, .pc, .screen, .dirty, .updates] s (s.finishDraw d) := by
  simp [OnlyChanges, Part.forall_iff, AgreeOn, State.finishDraw]

theorem exec_drw_of_fits {s : State} {n : Nibble} (h : n.toNat = 0 ∨ s.i.toNat + n.toNat ≤ 4096) (x y : Nibble) :
    exec (.drw x y n) s = .next (s.finishDraw (Screen.draw s.fb (s.getV x) (s.getV y) (s.sprite n))) :=
  exec_of_checkOf_none (i := .drw x y n) (boundsCheck_eq_none.mpr h)

/-- Settles O24: the check finds nothing, and what Draw reports is what the end of the draw writes. -/
theorem drawResult : Obligations.DrawResult := by
  intro s x y n
  refine ⟨decodeWord_encode (.drw x y n), fun hfit => ?_⟩
  rw [← Memory.readBytes_eq_map, exec_drw_of_fits hfit]
  obtain ⟨hpixel, hcollision, hchanged⟩ := drawTogglesCoveredPixels s.fb (s.getV x) (s.getV y) (s.sprite n)
  generalize Screen.draw s.fb (s.getV x) (s.getV y) (s.sprite n) = d at hpixel hcollision hchanged
  obtain ⟨hupdates, hdirty⟩ := s.finishDraw_strobe d
  have hflag : (s.finishDraw d).getV 15 = flagByte d.collision := s.getV_finishDraw d 15
  refine ⟨_, rfl, fun u v => ?_, fun hhit => ?_, fun hmiss => ?_, fun hhit => ?_, fun hmiss => ?_,
    s.finishDraw_onlyRegs d, s.finishDraw_pc d, s.finishDraw_onlyChanges d⟩
  · rw [State.finishDraw_fb]
    exact hpixel u v
  · rw [hflag, hcollision.mpr hhit]
    rfl
  · have hno : d.collision = false := Bool.eq_false_iff.mpr fun h => by
      obtain ⟨u, v, hcover, hset⟩ := hcollision.mp h
      exact Bool.eq_false_iff.mp (hmiss u v hcover) hset
    rw [hflag, hno]
    rfl
  · rw [hupdates, hdirty, hchanged.mpr hhit]
    exact ⟨rfl, rfl⟩
  · have hno : d.changed = false := Bool.eq_false_iff.mpr fun h => by
      obtain ⟨u, v, hcover⟩ := hchanged.mp h
      exact Bool.eq_false_iff.mp (hmiss u v) hcover
    rw [hupdates, hdirty, hno]
    exact ⟨rfl, rfl⟩

end Sys2Proof.Machine

/-! SUPPORT and PROOFS. The statements of 43_alu.md: copy and logic, and the five operations that write a flag. -/

namespace Sys2Proof.Machine

/-! ### Copy and logic (spec 43 R121 to R124) -/

/-- Settles O25: each of the four writes V[x] alone and goes on, so VF takes no flag. -/
theorem copyAndLogicResults : Obligations.CopyAndLogicResults := fun _ x y =>
  ⟨decodeWord_encode (.ldReg x y), decodeWord_encode (.orReg x y), decodeWord_encode (.andReg x y),
    decodeWord_encode (.xorReg x y),
    result_of_exec_eq_setV_advance (exec_of_checkOf_none rfl),
    result_of_exec_eq_setV_advance (exec_of_checkOf_none rfl),
    result_of_exec_eq_setV_advance (exec_of_checkOf_none rfl),
    result_of_exec_eq_setV_advance (exec_of_checkOf_none rfl)⟩

/-! ### The flag, then the result (spec 43 R120) -/

theorem State.writeFlagThenResult_onlyRegs (s : State) (x : Nibble) (g r : Byte) :
    OnlyRegs [x, 15] s (s.writeFlagThenResult x g r) := by
  intro q hq
  obtain ⟨hx, hf⟩ : q ≠ x ∧ q ≠ 15 := by simpa using hq
  rw [State.getV_writeFlagThenResult, if_neg hx, if_neg hf]

theorem State.writeFlagThenResult_advance_onlyChanges (s : State) (x : Nibble) (g r : Byte) :
    OnlyChanges [.regs, .pc] s (s.writeFlagThenResult x g r).advance := by
  simp [OnlyChanges, Part.forall_iff, AgreeOn]

/-- An instruction that writes the flag, then the result, and goes on at PC + 2: the result is in V[x] for every x, the
flag in VF unless the result has overwritten it, and nothing else changes. -/
theorem result_of_exec_eq_writeFlagThenResult_advance {i : Instr} {s : State} {x : Nibble} {g r : Byte} {n : Nat}
    (h : exec i s = .next (s.writeFlagThenResult x g r).advance) (hr : r.toNat = n) :
    ∃ t, exec i s = .next t ∧ (t.getV x).toNat = n ∧ (x ≠ 15 → t.getV 15 = g) ∧ OnlyRegs [x, 15] s t ∧
      t.pc = s.pc + 2 ∧ OnlyChanges [.regs, .pc] s t := by
  refine ⟨_, h, ?_, fun hx => ?_, s.writeFlagThenResult_onlyRegs x g r, rfl,
    s.writeFlagThenResult_advance_onlyChanges x g r⟩
  · rw [State.getV_advance, State.getV_writeFlagThenResult, if_pos rfl, hr]
  · rw [State.getV_advance, State.getV_writeFlagThenResult, if_neg hx.symm, if_pos rfl]

/-! ### Addition and subtraction (spec 43 R125, R126, R128) -/

theorem carryFlag_eq_ite (a b : Byte) : carryFlag a b = if a.toNat + b.toNat > 255 then 1 else 0 := by
  simp [carryFlag, flagByte]

theorem noBorrowFlag_eq_ite (a b : Byte) : noBorrowFlag a b = if a.toNat ≥ b.toNat then 1 else 0 := by
  simp [noBorrowFlag, flagByte]

theorem byte_sub_toNat (a b : Byte) : (a - b).toNat = (a.toNat + 256 - b.toNat) % 256 := by bv_omega

/-- Settles O26: the addition of bytes is the sum mod 256, and the flag the carry. -/
theorem addResult : Obligations.AddResult := by
  intro s x y
  rw [← carryFlag_eq_ite]
  exact ⟨decodeWord_encode (.addReg x y),
    result_of_exec_eq_writeFlagThenResult_advance (exec_of_checkOf_none rfl) (BitVec.toNat_add _ _)⟩

/-- Settles O27: SUBN is SUB with the operands exchanged, in the difference and in the flag. -/
theorem subtractResults : Obligations.SubtractResults := by
  intro s x y
  rw [← noBorrowFlag_eq_ite, ← noBorrowFlag_eq_ite]
  exact ⟨decodeWord_encode (.subReg x y), decodeWord_encode (.subnReg x y),
    result_of_exec_eq_writeFlagThenResult_advance (exec_of_checkOf_none rfl) (byte_sub_toNat _ _),
    result_of_exec_eq_writeFlagThenResult_advance (exec_of_checkOf_none rfl) (byte_sub_toNat _ _)⟩

/-! ### Shifts (spec 43 R127, R129) -/

theorem flagByte_toNat (b : Bool) : (flagByte b).toNat = b.toNat := by cases b <;> rfl

theorem lowBitFlag_toNat (a : Byte) : (lowBitFlag a).toNat = a.toNat % 2 := by
  rw [lowBitFlag, flagByte_toNat, BitVec.getLsbD, Nat.toNat_testBit, pow_zero, Nat.div_one]

/-- A byte has no bit above bit 7, so bit 7 is what is left over 128. -/
theorem highBitFlag_toNat (a : Byte) : (highBitFlag a).toNat = a.toNat / 128 := by
  have := a.isLt
  rw [highBitFlag, flagByte_toNat, BitVec.getLsbD, Nat.toNat_testBit]
  omega

theorem byte_ushiftRight_one_toNat (a : Byte) : (a >>> 1).toNat = a.toNat / 2 := by
  rw [BitVec.toNat_ushiftRight, Nat.shiftRight_eq_div_pow, pow_one]

theorem byte_shiftLeft_one_toNat (a : Byte) : (a <<< 1).toNat = a.toNat * 2 % 256 := by
  rw [BitVec.toNat_shiftLeft, Nat.shiftLeft_eq, pow_one]

/-- Settles O28: a shift by one halves or doubles V[x], and the flag is the bit moved out; the proof does not look at
`y`. -/
theorem shiftResults : Obligations.ShiftResults := by
  intro s x y
  simp only [← lowBitFlag_toNat, ← highBitFlag_toNat, BitVec.toNat_inj]
  exact ⟨decodeWord_encode (.shr x y), decodeWord_encode (.shl x y),
    result_of_exec_eq_writeFlagThenResult_advance (exec_of_checkOf_none rfl) (byte_ushiftRight_one_toNat _),
    result_of_exec_eq_writeFlagThenResult_advance (exec_of_checkOf_none rfl) (byte_shiftLeft_one_toNat _)⟩

end Sys2Proof.Machine

/-! SUPPORT and PROOFS. The statement of 44_key_skip.md: the skips on a key, and KEY_RANGE. -/

namespace Sys2Proof.Machine

/-- Zero extension puts eight zero bits above the byte (spec 30 R63). -/
theorem zextByte_eq_append (b : Byte) : zextByte b = 0#8 ++ b := by
  apply BitVec.eq_of_toNat_eq
  rw [zextByte_toNat, BitVec.toNat_append]
  simp

/-- A value that is a key's number names that key (spec 44 R140). -/
theorem keyOf_of_toNat_eq {b : Byte} {k : Nibble} (h : b.toNat = k.toNat) : keyOf b = k := by
  apply BitVec.eq_of_toNat_eq
  rw [keyOf, BitVec.truncate_eq_setWidth, BitVec.toNat_setWidth, h, Nat.mod_eq_of_lt k.isLt]

theorem State.skipIf_not_pc (s : State) (c : Bool) :
    (s.skipIf !c).pc = if c = true then s.pc + 2 else s.pc + 4 := by
  cases c <;> rfl

/-- Settles O29: one check serves both skips. A key's number passes it, and the skip then writes PC alone by that key's
bit; a value over 15 is the fault. -/
theorem keySkipResults : Obligations.KeySkipResults := by
  intro s x
  refine ⟨decodeWord_encode (.skp x), decodeWord_encode (.sknp x), fun k hk => ?_, fun hx => ?_⟩
  · have hc : keyCheck (s.getV x) = none := keyCheck_eq_none.mpr (by have := k.isLt; omega)
    rw [← keyOf_of_toNat_eq hk]
    exact ⟨⟨_, exec_of_checkOf_none (i := .skp x) hc, s.skipIf_pc _, s.skipIf_onlyChanges _⟩,
      ⟨_, exec_of_checkOf_none (i := .sknp x) hc, s.skipIf_not_pc _, s.skipIf_onlyChanges _⟩⟩
  · have hc : keyCheck (s.getV x) = some ⟨.keyRange, 0#8 ++ s.getV x⟩ :=
      keyCheck_eq_some.mpr ⟨hx, by rw [zextByte_eq_append]⟩
    exact ⟨⟨_, exec_of_checkOf_some (i := .skp x) hc, s.raise_faultsWith _ _⟩,
      ⟨_, exec_of_checkOf_some (i := .sknp x) hc, s.raise_faultsWith _ _⟩⟩

end Sys2Proof.Machine

/-! SUPPORT and PROOFS. The statements of 45_fx.md: the runs of bytes FX33, FX55 and FX65 move, the timers, the key
wait, and the arithmetic on I. -/

namespace Sys2Proof.Machine

/-! ### Instructions that check a run of bytes from I (spec 20 R43, 60 R204) -/

theorem exec_of_bytes_inside {i : Instr} {s : State} {n : Nat} (hc : s.checkOf i = boundsCheck s.i n)
    (hn : s.i.toNat + n ≤ 4096) : exec i s = .next (s.effectOf i) :=
  exec_of_checkOf_none (hc.trans (boundsCheck_eq_none.mpr (.inr hn)))

theorem memBounds_of_bytes_outside {i : Instr} {s : State} {n : Nat} (hc : s.checkOf i = boundsCheck s.i n)
    (hpos : 0 < n) (hn : 4096 < s.i.toNat + n) :
    ∃ t, exec i s = .next t ∧ FaultsWith .memBounds (BitVec.ofNat 16 (max s.i.toNat 4096)) s t :=
  ⟨_, exec_of_checkOf_some (hc.trans (boundsCheck_eq_some.mpr ⟨hpos, hn, rfl⟩)), s.raise_faultsWith _ _⟩

/-! ### A run of bytes stored from I (spec 45 R156, R157) -/

theorem Memory.read_writeBytes_add {m : Memory} {a : Nat} {l : List Byte} (ha : a + l.length ≤ Config.memSize)
    (hm : m.wf = true) {j : Nat} (hj : j < l.length) :
    Memory.read (Memory.writeBytes m a l) (a + j) = l.getD j 0 := by
  rw [Memory.read_writeBytes _ _ _ ha hm, if_pos (by omega), Nat.add_sub_cancel_left]

theorem Memory.read_writeBytes_outside {m : Memory} {a : Nat} {l : List Byte} (ha : a + l.length ≤ Config.memSize)
    (hm : m.wf = true) {c : Nat} (hc : c < a ∨ a + l.length ≤ c) :
    Memory.read (Memory.writeBytes m a l) c = Memory.read m c := by
  rw [Memory.read_writeBytes _ _ _ ha hm, if_neg (by omega)]

theorem State.setMem_advance_onlyChanges (s : State) (m : Memory) :
    OnlyChanges [.memory, .pc] s (s.setMem m).advance := by
  simp [OnlyChanges, Part.forall_iff, AgreeOn]

/-- No digit of a byte needs more than a byte (spec 45 R156). -/
theorem bcdDigits_getD_toNat (b : Byte) :
    ((bcdDigits b).getD 0 0).toNat = b.toNat / 100 ∧ ((bcdDigits b).getD 1 0).toNat = b.toNat / 10 % 10 ∧
    ((bcdDigits b).getD 2 0).toNat = b.toNat % 10 := by
  have := b.isLt
  simp only [bcdDigits, List.getD_cons_zero, List.getD_cons_succ, BitVec.toNat_ofNat]
  omega

/-- After FX33 the byte at I + j is digit j, hundreds first (spec 45 R156). -/
theorem State.read_effectOf_bcd {s : State} {x : Nibble} (hm : Memory.wf s.mem = true) (hfit : s.i.toNat + 3 ≤ 4096)
    {j : Nat} (hj : j < 3) :
    Memory.read (s.effectOf (.bcd x)).mem (s.i.toNat + j) = (bcdDigits (s.getV x)).getD j 0 := by
  rw [State.effectOf, State.advance_mem, State.setMem_mem]
  exact Memory.read_writeBytes_add hfit hm hj

/-- Settles O33: three bytes are checked and, inside memory, written, and they are the digits. -/
theorem bcdResult : Obligations.BcdResult := by
  intro s x
  refine ⟨decodeWord_encode (.bcd x), fun hm hfit => ?_, fun hout => ?_⟩
  · have digit {j : Nat} (hj : j < 3) := congrArg BitVec.toNat (State.read_effectOf_bcd (x := x) hm hfit hj)
    obtain ⟨hundreds, tens, ones⟩ := bcdDigits_getD_toNat (s.getV x)
    exact ⟨_, exec_of_bytes_inside (n := 3) rfl hfit,
      (digit (j := 0) (by decide)).trans hundreds, (digit (by decide)).trans tens, (digit (by decide)).trans ones,
      fun a ha => Memory.read_writeBytes_outside (l := bcdDigits (s.getV x)) hfit hm ha, rfl,
      s.setMem_advance_onlyChanges _⟩
  · exact memBounds_of_bytes_outside (n := 3) rfl (by decide) (by omega)

/-- Settles O34: a byte for each of V[0] to V[X] is checked and, inside memory, written. -/
theorem blockStoreResult : Obligations.BlockStoreResult := by
  intro s x
  refine ⟨decodeWord_encode (.store x), fun hm hfit => ?_, fun hout => ?_⟩
  · have hin : s.i.toNat + (s.regsUpTo x).length ≤ Config.memSize := by rwa [State.regsUpTo_length]
    refine ⟨_, exec_store_of_fits hfit, fun r => State.read_effectOf_store hm hfit, fun a ha => ?_, rfl,
      s.setMem_advance_onlyChanges _⟩
    exact Memory.read_writeBytes_outside hin hm (by rwa [State.regsUpTo_length])
  · exact memBounds_of_bytes_outside (n := x.toNat + 1) rfl (by omega) (by omega)

/-! ### Registers loaded from I (spec 45 R158) -/

theorem State.getV_effectOf_load (s : State) (x r : Nibble) :
    (s.effectOf (.load x)).getV r =
      if r.toNat ≤ x.toNat then Memory.read s.mem (s.i.toNat + r.toNat) else s.getV r := by
  have hlen : 0 + (Memory.readBytes s.mem s.i.toNat (x.toNat + 1)).length ≤ 16 := by
    have := x.isLt
    rw [Memory.readBytes_length]
    omega
  rw [State.effectOf, State.getV_advance, State.getV_loadRegs _ _ _ hlen, Memory.readBytes_length]
  by_cases hr : r.toNat ≤ x.toNat
  · rw [if_pos (by omega), if_pos hr, Nat.sub_zero, Memory.getD_readBytes _ _ _ _ _ (by omega)]
  · rw [if_neg (by omega), if_neg hr]

theorem State.effectOf_load_onlyChanges (s : State) (x : Nibble) :
    OnlyChanges [.regs, .pc] s (s.effectOf (.load x)) := by
  simp [OnlyChanges, Part.forall_iff, AgreeOn, State.effectOf]

/-- Settles O35: a byte for each of V[0] to V[X] is checked and, inside memory, loaded. -/
theorem blockLoadResult : Obligations.BlockLoadResult := by
  intro s x
  refine ⟨decodeWord_encode (.load x), fun hfit => ?_, fun hout => ?_⟩
  · exact ⟨_, exec_of_bytes_inside (n := x.toNat + 1) rfl hfit, s.getV_effectOf_load x,
      State.effectOf_pc_of_sequential rfl, s.effectOf_load_onlyChanges x⟩
  · exact memBounds_of_bytes_outside (n := x.toNat + 1) rfl (by omega) (by omega)

/-- Settles O36: the store leaves I alone, so the load reads the bytes where the store has put them. -/
theorem storeThenLoadRestoresRegisters : Obligations.StoreThenLoadRestoresRegisters := by
  intro s x regs hm hfit
  obtain ⟨-, hstore, -⟩ := blockStoreResult s x
  obtain ⟨t, ht, hbytes, -, -, hframe⟩ := hstore hm hfit
  have hi : t.i = s.i := hframe .index (by simp)
  obtain ⟨-, hload, -⟩ := blockLoadResult { t with v := regs } x
  obtain ⟨u, hu, hregs, -⟩ := hload (by rwa [hi])
  refine ⟨t, u, ht, hu, fun r => ?_⟩
  by_cases hr : r.toNat ≤ x.toNat
  · rw [hregs, if_pos hr, if_pos hr, hi, hbytes r hr]
  · rw [hregs, if_neg hr, if_neg hr, State.getV]

/-! ### Timers (spec 45 R150, R152, R153) -/

theorem State.setDt_advance_onlyChanges (s : State) (b : Byte) : OnlyChanges [.delay, .pc] s (s.setDt b).advance := by
  simp [OnlyChanges, Part.forall_iff, AgreeOn]

theorem State.setSt_advance_onlyChanges (s : State) (b : Byte) : OnlyChanges [.sound, .pc] s (s.setSt b).advance := by
  simp [OnlyChanges, Part.forall_iff, AgreeOn]

/-- Settles O30: each is one write and PC + 2, and the tone is read off ST. -/
theorem timerInstructionResults : Obligations.TimerInstructionResults := fun s x =>
  ⟨decodeWord_encode (.ldVDt x), decodeWord_encode (.ldDtV x), decodeWord_encode (.ldStV x),
    result_of_exec_eq_setV_advance (exec_of_checkOf_none rfl),
    ⟨_, exec_of_checkOf_none rfl, rfl, rfl, s.setDt_advance_onlyChanges _⟩,
    ⟨_, exec_of_checkOf_none rfl, rfl, State.ports_tone_iff _, rfl, s.setSt_advance_onlyChanges _⟩⟩

/-! ### The key wait (spec 45 R151, 60 R215) -/

theorem zextKey_toNat (k : Nibble) : (zextKey k).toNat = k.toNat := by
  have := k.isLt
  simp [zextKey]
  omega

theorem State.effectOf_ldVKey_onlyChanges (s : State) (x : Nibble) :
    OnlyChanges [.keyWait, .run] s (s.effectOf (.ldVKey x)) := by
  simp [OnlyChanges, Part.forall_iff, AgreeOn, State.effectOf]

/-- Outside RUNNING the step strobe is ignored (spec 10 R22). -/
theorem State.interpreterStep_of_not_running {s : State} (h : s.run ≠ .running) : s.interpreterStep = .next s := by
  rcases s.interpreterStep_cases with ⟨-, hs⟩ | ⟨hr, -⟩ | ⟨hr, -⟩
  · exact hs
  · exact absurd hr h
  · exact absurd hr h

/-- A released-to-pressed transition fulfils a pending request (spec 60 R215). -/
theorem State.keySet_of_pressed {s : State} {k : Nibble} (hk : s.getKey k = false) (hw : s.kwait = true) :
    s.keySet k true = (s.setKey k true).fulfilKeyWait k := by
  rcases s.keySet_cases k true with ⟨-, -, -, h⟩ | ⟨h, -⟩
  · exact h
  · exact absurd ⟨hk, rfl, hw⟩ h

/-- Fulfilling a request writes the key's number to the register the request names, and no other. -/
theorem State.getV_fulfilKeyWait {s : State} {x : Nibble} (hx : s.kreg = x) (k r : Nibble) :
    (s.fulfilKeyWait k).getV r = if r = x then zextKey k else s.getV r := by
  simp [State.fulfilKeyWait, State.getV_setV, hx]

@[simp] theorem State.getKey_fulfilKeyWait (s : State) (k j : Nibble) :
    (s.fulfilKeyWait k).getKey j = s.getKey j := rfl

theorem State.fulfilKeyWait_onlyChanges (s : State) (k : Nibble) :
    OnlyChanges [.regs, .keyWait, .run, .pc] s (s.fulfilKeyWait k) := by
  simp [OnlyChanges, Part.forall_iff, AgreeOn, State.fulfilKeyWait]

theorem State.setKey_onlyChanges (s : State) (k : Nibble) (p : Bool) : OnlyChanges [.keys] s (s.setKey k p) := by
  simp [OnlyChanges, Part.forall_iff, AgreeOn]

theorem OnlyChanges.mono {ps qs : List Part} {s t : State} (h : OnlyChanges ps s t) (hpq : ps ⊆ qs) :
    OnlyChanges qs s t := fun p hp => h p fun hps => hp (hpq hps)

/-- Settles O31: the request names X and leaves RUNNING, so a step does nothing and the first newly pressed key writes
its number to V[X] and runs on. -/
theorem keyWaitResult : Obligations.KeyWaitResult := by
  intro s x
  have hwait := s.effectOf_ldVKey_onlyChanges x
  refine ⟨decodeWord_encode (.ldVKey x), s.effectOf (.ldVKey x), exec_of_checkOf_none rfl, rfl, rfl, rfl, hwait,
    State.interpreterStep_of_not_running (by simp [State.effectOf]), fun k hk => ?_⟩
  refine ⟨_, congrArg Host.Outcome.next (State.keySet_of_pressed hk rfl), ?_, fun r hr => ?_, ?_, fun j hj => ?_,
    rfl, rfl, rfl, ?_⟩
  · rw [State.getV_fulfilKeyWait (x := x) rfl, if_pos rfl, zextKey_toNat]
  · rw [State.getV_fulfilKeyWait (x := x) rfl, if_neg (List.ne_of_not_mem_cons hr)]
    rfl
  · rw [State.getKey_fulfilKeyWait, State.getKey_setKey, if_pos rfl]
  · rw [State.getKey_fulfilKeyWait, State.getKey_setKey, if_neg hj]
    rfl
  · exact ((hwait.mono (by simp)).trans ((State.setKey_onlyChanges _ k true).mono (by simp))).trans
      ((State.fulfilKeyWait_onlyChanges _ k).mono (by simp))

/-! ### Arithmetic on I (spec 45 R154, R155) -/

theorem add_zextByte_toNat (w : Word) (b : Byte) : (w + zextByte b).toNat = (w.toNat + b.toNat) % 65536 := by
  rw [BitVec.toNat_add, zextByte_toNat]

/-- The glyph address of the largest byte, FONT_BASE + 5 * 255, fits in 16 bits. -/
theorem glyphAddr_toNat (b : Byte) : (glyphAddr b).toNat = Config.fontBase + 5 * b.toNat := by
  have := b.isLt
  rw [glyphAddr, BitVec.toNat_ofNat, Config.fontBase, Config.glyphBytes]
  omega

/-- Settles O32: both write I alone; the addition of words is the sum mod 65536, and the glyph address
is not reduced. -/
theorem indexArithmeticResults : Obligations.IndexArithmeticResults := fun s x =>
  ⟨decodeWord_encode (.addI x), decodeWord_encode (.ldFont x),
    ⟨_, exec_of_checkOf_none rfl, add_zextByte_toNat _ _, rfl, s.setI_advance_onlyChanges _⟩,
    ⟨_, exec_of_checkOf_none rfl, glyphAddr_toNat _, rfl, s.setI_advance_onlyChanges _⟩⟩

end Sys2Proof.Machine

/-! SUPPORT and PROOFS. The statements of 60_exceptions.md: fault entry and its codes, the faults of the fetch and of
the accesses to memory, the ticks, key changes, cancellation, and the generic countdown. -/

namespace Sys2Proof.Machine

/-! ### Every transition answers (spec 60 R208, R218) -/

theorem exec_answers (i : Instr) (s : State) : ∃ t, exec i s = .next t := by
  cases hc : s.checkOf i with
  | none => exact ⟨_, exec_of_checkOf_none hc⟩
  | some r => exact ⟨_, exec_of_checkOf_some hc⟩

theorem State.interpreterStep_answers (s : State) : ∃ t, s.interpreterStep = .next t := by
  rcases s.interpreterStep_cases with ⟨-, h⟩ | ⟨-, -, h⟩ | ⟨-, -, h⟩
  · exact ⟨_, h⟩
  · exact ⟨_, h⟩
  · rw [h]
    rcases s.instructionCycle_cases with ⟨-, h⟩ | ⟨-, -, h⟩ | ⟨-, i, -, h⟩
    · exact ⟨_, h⟩
    · exact ⟨_, h⟩
    · rw [h]
      exact exec_answers i s

theorem State.apply_answers (s : State) (e : Event) : ∃ t, s.apply e = .next t := by
  cases e with
  | step => exact s.interpreterStep_answers
  | _ => exact ⟨_, rfl⟩

/-- Settles O12: an instruction ends in fault entry or its effect, and a step is the dropping of a cancelled key wait
or an event. -/
theorem everyTransitionAnswersNextState : Obligations.EveryTransitionAnswersNextState := by
  refine ⟨exec_answers, fun s => ?_⟩
  rcases s.transition_cases with ⟨-, -, h⟩ | ⟨-, h⟩ | ⟨e, rest, -, h⟩
  · exact ⟨_, h⟩
  · obtain ⟨t, ht⟩ := s.interpreterStep_answers
    exact ⟨t, h.trans ht⟩
  · obtain ⟨t, ht⟩ := (s.setInputs rest).apply_answers e
    exact ⟨t, h.trans ht⟩

/-! ### Faults of an instruction, and what no instruction writes (spec 60 R208, R209, R218, 10 R20 to R24) -/

/-- A check finds one of the four execute-stage faults (spec 60 R202 to R205). -/
theorem State.code_mem_of_checkOf {s : State} {i : Instr} {r : Trap} (h : s.checkOf i = some r) :
    r.code ∈ [FaultCode.stackOverflow, .stackUnderflow, .memBounds, .keyRange] := by
  cases i with
  | ret | call =>
    rw [State.checkOf] at h
    split at h <;> cases h
    simp
  | drw | bcd | store | load =>
    obtain ⟨-, -, rfl⟩ := boundsCheck_eq_some.mp h
    simp
  | skp | sknp =>
    obtain ⟨-, rfl⟩ := keyCheck_eq_some.mp h
    simp
  | _ => cases h

/-- RUN and the key request are written, outside fault entry, by FX0A alone (spec 10 R21, R22). -/
theorem State.effectOf_run_cases (s : State) (i : Instr) :
    ((s.effectOf i).run = s.run ∧ (s.effectOf i).kwait = s.kwait ∧ (s.effectOf i).kreg = s.kreg) ∨
    ((∃ x, i = .ldVKey x) ∧ (s.effectOf i).run = .waitKey) := by
  cases i with
  | ldVKey x => exact .inr ⟨⟨x, rfl⟩, rfl⟩
  | drw => exact .inl (by simp [State.effectOf, State.finishDraw])
  | _ => exact .inl (by simp [State.effectOf])

theorem State.effectOf_faults (s : State) (i : Instr) :
    (s.effectOf i).fault = s.fault ∧ (s.effectOf i).faultInfo = s.faultInfo ∧
    (s.effectOf i).faultPc = s.faultPc := by
  cases i with
  | drw => simp [State.effectOf, State.finishDraw]
  | _ => simp [State.effectOf]

/-- The keys, CANCEL and the events to come are the host's (spec 10 R20, R23). -/
theorem State.effectOf_host (s : State) (i : Instr) :
    (s.effectOf i).key = s.key ∧ (s.effectOf i).cancel = s.cancel ∧ (s.effectOf i).inputs = s.inputs := by
  cases i with
  | drw => simp [State.effectOf, State.finishDraw]
  | _ => simp [State.effectOf]

theorem State.effectOf_run_ne_faulted {s : State} (i : Instr) (h : s.run ≠ .faulted) :
    (s.effectOf i).run ≠ .faulted := by
  rcases s.effectOf_run_cases i with ⟨hrun, -⟩ | ⟨-, hrun⟩
  · rwa [hrun]
  · simp [hrun]

/-- Settles O11: no effect enters FAULTED, so the instruction raised what its check found. -/
theorem faultEntryIsPrecise : Obligations.FaultEntryIsPrecise := by
  intro i s t hs h ht
  rcases exec_cases h with ⟨r, hc, rfl⟩ | ⟨-, rfl⟩
  · exact ⟨r.code, r.info, State.code_mem_of_checkOf hc, s.raise_faultsWith _ _⟩
  · exact absurd ht (State.effectOf_run_ne_faulted i hs)

/-- Settles O55: fault entry is the third form; an effect leaves all of it alone, but for FX0A's RUN and request. -/
theorem programCannotReachHostState : Obligations.ProgramCannotReachHostState := by
  intro i s t h
  rcases exec_cases h with ⟨r, hc, rfl⟩ | ⟨-, rfl⟩
  · exact ⟨rfl, rfl, rfl, .inr (.inr ⟨rfl, (State.code_of_checkOf hc).1, rfl, rfl⟩)⟩
  · obtain ⟨hkey, hcancel, hinputs⟩ := s.effectOf_host i
    refine ⟨hkey, hcancel, hinputs, ?_⟩
    rcases s.effectOf_run_cases i with ⟨hrun, hkwait, hkreg⟩ | ⟨hi, hrun⟩
    · exact .inl ⟨hrun, hkwait, hkreg, s.effectOf_faults i⟩
    · exact .inr (.inl ⟨hi, hrun, s.effectOf_faults i⟩)

/-! ### Faults of the fetch, of the decoder and of memory accesses (spec 60 R201, R204) -/

/-- In RUNNING no cancelled key wait is due, so either way to take a step is the interpreter's. -/
theorem State.step_eq_interpreterStep {s u : State} (hs : s.stepFrom u) (hr : u.run = .running) :
    step s = u.interpreterStep := by
  refine State.stepFrom_step hs ?_
  obtain ⟨l, rfl⟩ := State.stepFrom_eq hs
  have hrun : s.run = .running := hr
  simp [State.keyWaitCancelled, hrun]

theorem State.step_eq_instructionCycle {s u : State} (hs : s.stepFrom u) (hr : u.run = .running)
    (hc : u.cancel = false) : step s = u.instructionCycle :=
  (State.step_eq_interpreterStep hs hr).trans (State.interpreterStep_of_running hr hc)

theorem State.instructionCycle_of_gt {s : State} (hp : 0xFFE < s.pc.toNat) :
    s.instructionCycle = .next (s.raise ⟨.memBounds, BitVec.ofNat 16 (max s.pc.toNat 4096)⟩) := by
  rw [State.instructionCycle, State.fetch_of_gt hp]

theorem State.instructionCycle_of_decode_error {s : State} {e : DecodeError} (hp : s.pc.toNat ≤ 0xFFE)
    (hd : decodeWord s.fetchedWord = .error e) :
    s.instructionCycle = .next (s.raise ⟨.decode, s.fetchedWord⟩) := by
  rcases s.instructionCycle_cases with ⟨hb, -⟩ | ⟨-, -, h⟩ | ⟨-, i, hi, -⟩
  · omega
  · exact h
  · cases hi.symm.trans hd

/-- Settles O4: the fetch checks two bytes from PC, and DXYN, FX33, FX55 and FX65 check theirs from I. -/
theorem memBoundsFaults : Obligations.MemBoundsFaults := by
  refine ⟨fun s u hs hr hc hp => ?_, fun s x y n hn hout => ?_, fun s x hout => ?_, fun s x hout => ⟨?_, ?_⟩⟩
  · exact ⟨_, (State.step_eq_instructionCycle hs hr hc).trans (State.instructionCycle_of_gt hp),
      u.raise_faultsWith _ _⟩
  · exact memBounds_of_bytes_outside (n := n.toNat) rfl hn hout
  · exact memBounds_of_bytes_outside (n := 3) rfl (by decide) (by omega)
  · exact memBounds_of_bytes_outside (n := x.toNat + 1) rfl (by omega) (by omega)
  · exact memBounds_of_bytes_outside (n := x.toNat + 1) rfl (by omega) (by omega)

/-- Settles O5: a step from a PC a word can be fetched from is an instruction cycle, which raises the fault. -/
theorem decodeFaultCarriesWord : Obligations.DecodeFaultCarriesWord := fun _ u _ hs hr hc hp hd =>
  ⟨_, (State.step_eq_instructionCycle hs hr hc).trans (State.instructionCycle_of_decode_error hp hd),
    u.raise_faultsWith _ _⟩

/-! ### Ticks (spec 60 R214) -/

theorem countDown_toNat (b : Byte) : (countDown b).toNat = b.toNat - 1 := by
  rw [countDown]
  split
  · next h => simp [h]
  · next h => bv_omega

theorem State.tickD_onlyChanges (s : State) : OnlyChanges [.delay] s s.tickD := by
  simp [OnlyChanges, Part.forall_iff, AgreeOn, State.tickD]

theorem State.tickS_onlyChanges (s : State) : OnlyChanges [.sound] s s.tickS := by
  simp [OnlyChanges, Part.forall_iff, AgreeOn, State.tickS]

/-- The tone is on after a tick exactly if the count was more than one. -/
theorem State.ports_tone_tickS (s : State) : s.tickS.ports.tone = true ↔ 1 < s.st.toNat := by
  have hst : s.tickS.st.toNat = s.st.toNat - 1 := countDown_toNat s.st
  rw [State.ports_tone_iff]
  bv_omega

/-- Settles O38: each tick counts its own timer down. -/
theorem ticksCountDown : Obligations.TicksCountDown := fun s =>
  ⟨⟨_, rfl, countDown_toNat s.dt, s.tickD_onlyChanges⟩,
    ⟨_, rfl, countDown_toNat s.st, s.ports_tone_tickS, s.tickS_onlyChanges⟩⟩

/-! ### Key changes (spec 60 R215) -/

theorem State.getKey_keySet (s : State) (k j : Nibble) (p : Bool) :
    (s.keySet k p).getKey j = if j = k then p else s.getKey j := by
  rcases s.keySet_cases k p with ⟨-, -, -, h⟩ | ⟨-, h⟩
  · rw [h, State.getKey_fulfilKeyWait, State.getKey_setKey]
  · rw [h, State.getKey_setKey]

/-- Settles O39: the key is written in both cases; then the request, if it is fulfilled, writes its register, and
nothing else happens if it is not. -/
theorem keySetResult : Obligations.KeySetResult := by
  intro s k p
  refine ⟨_, rfl, ?_, fun j hj => ?_, ?_, fun hno => ?_⟩
  · rw [State.getKey_keySet, if_pos rfl]
  · rw [State.getKey_keySet, if_neg hj]
  · rintro ⟨hk, rfl, hw⟩
    rw [State.keySet_of_pressed hk hw]
    have hregs := State.getV_fulfilKeyWait (s := s.setKey k true) (x := s.kreg) rfl k
    refine ⟨?_, fun r hr => ?_, rfl, rfl, rfl, rfl, ?_⟩
    · rw [hregs, if_pos rfl, zextKey_toNat]
    · rw [hregs, if_neg (List.ne_of_not_mem_cons hr), State.getV_setKey]
    · exact ((s.setKey_onlyChanges k true).mono (by simp)).trans
        ((State.fulfilKeyWait_onlyChanges _ k).mono (by simp))
  · rcases s.keySet_cases k p with ⟨hk, hp, hw, -⟩ | ⟨-, h⟩
    · exact absurd ⟨hk, hp, hw⟩ hno
    · rw [h]
      exact s.setKey_onlyChanges k p

/-! ### Cancellation (spec 60 R216, 70 R255) -/

theorem State.setCancelFlag_onlyChanges (s : State) : OnlyChanges [.cancel] s s.setCancelFlag := by
  simp [OnlyChanges, Part.forall_iff, AgreeOn, State.setCancelFlag]

theorem State.setRun_onlyChanges (s : State) (r : RunState) : OnlyChanges [.run] s (s.setRun r) := by
  simp [OnlyChanges, Part.forall_iff, AgreeOn]

theorem State.cancelKeyWait_onlyChanges (s : State) : OnlyChanges [.run, .keyWait] s s.cancelKeyWait := by
  simp [OnlyChanges, Part.forall_iff, AgreeOn, State.cancelKeyWait]

/-- A running machine that finds CANCEL stops without a fetch. -/
theorem State.step_of_cancelled_run {s u : State} (hs : s.stepFrom u) (hr : u.run = .running)
    (hc : u.cancel = true) : step s = .next (u.setRun .stopped) := by
  rw [State.step_eq_interpreterStep hs hr]
  rcases u.interpreterStep_cases with ⟨hn, -⟩ | ⟨-, -, h⟩ | ⟨-, hf, -⟩
  · exact absurd hr hn
  · exact h
  · cases hc.symm.trans hf

/-- In a cancelled key wait the internal transition comes before any event (log 14). -/
theorem State.step_of_cancelled_wait {s : State} (hr : s.run = .waitKey) (hc : s.cancel = true) :
    step s = .next s.cancelKeyWait := if_pos (by simp [State.keyWaitCancelled, hr, hc])

/-- Settles O40: the flag is set, then a running machine stops by the interpreter's step and a waiting one by the
internal transition. -/
theorem cancelStopsTheMachine : Obligations.CancelStopsTheMachine := by
  refine ⟨fun s => ?_, fun s u hs hr hc => ?_, fun s hr hc => ?_, fun s u hs hrun => ?_⟩
  · exact ⟨_, rfl, rfl, s.setCancelFlag_onlyChanges⟩
  · exact ⟨_, State.step_of_cancelled_run hs hr hc, rfl, u.setRun_onlyChanges _⟩
  · exact ⟨_, State.step_of_cancelled_wait hr hc, rfl, rfl, rfl, s.cancelKeyWait_onlyChanges⟩
  · rcases hrun with hr | hr
    · obtain ⟨l, rfl⟩ := State.stepFrom_eq hs
      exact ⟨_, State.step_of_cancelled_run hs hr rfl, rfl, rfl⟩
    · exact ⟨_, State.step_of_cancelled_wait (s := s.setCancelFlag) hr rfl, rfl, rfl⟩

/-! ### The generic countdown (spec 60 R219, R207) -/

theorem Timer.due_iff {t : Timer} {now : Nat} :
    t.due now = true ↔ 0 < t.remaining ∧ t.last + t.period ≤ now := by
  simp [Timer.due, Nat.pos_iff_ne_zero]

theorem Timer.tick_of_not_due {t : Timer} {now : Nat} (h : t.remaining = 0 ∨ now < t.last + t.period) :
    t.tick now = (t, none) := if_neg (by rw [Timer.due_iff]; omega)

theorem Timer.tick_of_due {t : Timer} {now : Nat} (hpos : 0 < t.remaining) (hdue : t.last + t.period ≤ now) :
    t.tick now =
      ({ t with remaining := if t.remaining = 1 ∧ t.repeats = true then 1 else t.remaining - 1, last := now },
        some (t.remaining - 1)) := by
  have hone : t.remaining - 1 = 0 ↔ t.remaining = 1 := by omega
  rw [Timer.tick, if_pos (Timer.due_iff.mpr ⟨hpos, hdue⟩)]
  simp only [hone]

theorem Timer.construct_of_nonpos {p : Int} (h : p ≤ 0) (r : Bool) (n l : Nat) :
    Timer.construct p r n l = .fault .config := if_pos h

theorem Timer.construct_of_pos {p : Int} (h : 0 < p) (r : Bool) (n l : Nat) :
    Timer.construct p r n l = .next ⟨p.toNat, r, n, l⟩ := if_neg (by omega)

/-- Settles O51: a tick does something exactly when a decrement is due, and then one; a positive period is kept. -/
theorem genericTimerTicks : Obligations.GenericTimerTicks := by
  refine ⟨fun t now => Timer.tick_of_not_due, fun t now hpos hdue => ?_, fun p r n l => ⟨fun hp => ?_, fun hp => ?_⟩⟩
  · rw [Timer.tick_of_due hpos hdue]
    exact ⟨rfl, rfl, rfl, rfl, rfl⟩
  · exact Timer.construct_of_nonpos hp r n l
  · exact ⟨_, Timer.construct_of_pos hp r n l, Int.toNat_of_nonneg hp.le, rfl, rfl, rfl⟩

end Sys2Proof.Machine

/-! SUPPORT and PROOFS. The statements of 70_reset_and_hazards.md: power_on, reset, load and run, and the host
operations that are ignored. -/

namespace Sys2Proof.Machine

/-! ### A run of bytes in memory: what reads back, writing it again, two runs apart (spec 20 R42, R45) -/

@[simp] theorem font_length : Config.font.length = 80 := rfl

/-- Inside a list the byte read with a default is the byte there. -/
theorem some_getD_of_lt {l : List Byte} {j : Nat} (hj : j < l.length) (d : Byte) : some (l.getD j d) = l[j]? := by
  rw [List.getD_eq_getElem _ _ hj, List.getElem?_eq_getElem hj]

theorem Memory.some_read_writeBytes_add {m : Memory} {a : Nat} {l : List Byte} (ha : a + l.length ≤ Config.memSize)
    (hm : m.wf = true) {j : Nat} (hj : j < l.length) :
    some (Memory.read (Memory.writeBytes m a l) (a + j)) = l[j]? := by
  rw [Memory.read_writeBytes_add ha hm hj, some_getD_of_lt hj]

/-- Writing the bytes that are there leaves a canonical memory as it is. -/
theorem Memory.writeBytes_eq_self {m : Memory} {a : Nat} {l : List Byte} (ha : a + l.length ≤ Config.memSize)
    (hm : m.wf = true) (hl : ∀ j, j < l.length → some (Memory.read m (a + j)) = l[j]?) :
    Memory.writeBytes m a l = m := by
  refine Memory.ext_read (Memory.wf_writeBytes m a l ha hm) hm fun c => ?_
  by_cases hc : c < a ∨ a + l.length ≤ c
  · exact Memory.read_writeBytes_outside ha hm hc
  · obtain ⟨j, rfl⟩ := Nat.exists_eq_add_of_le (show a ≤ c by omega)
    have hj : j < l.length := by omega
    exact Option.some.inj ((Memory.some_read_writeBytes_add ha hm hj).trans (hl j hj).symm)

/-- Two runs of bytes that do not overlap can be written in either order. -/
theorem Memory.writeBytes_comm {m : Memory} {a b : Nat} {l k : List Byte} (hm : m.wf = true)
    (hab : a + l.length ≤ b) (hb : b + k.length ≤ Config.memSize) :
    Memory.writeBytes (Memory.writeBytes m a l) b k = Memory.writeBytes (Memory.writeBytes m b k) a l := by
  have ha : a + l.length ≤ Config.memSize := by omega
  have hl := Memory.wf_writeBytes m a l ha hm
  have hk := Memory.wf_writeBytes m b k hb hm
  refine Memory.ext_read (Memory.wf_writeBytes _ _ _ hb hl) (Memory.wf_writeBytes _ _ _ ha hk) fun c => ?_
  by_cases hc : c < b
  · rw [Memory.read_writeBytes_outside hb hl (.inl hc), Memory.read_writeBytes _ _ _ ha hm,
      Memory.read_writeBytes _ _ _ ha hk, Memory.read_writeBytes_outside hb hm (.inl hc)]
  · have hout : c < a ∨ a + l.length ≤ c := by omega
    rw [Memory.read_writeBytes _ _ _ hb hl, Memory.read_writeBytes_outside ha hm hout,
      Memory.read_writeBytes_outside ha hk hout, Memory.read_writeBytes _ _ _ hb hm]

/-! ### The reset values (spec 10 R27) -/

/-- Every element but memory, the keys and the model's own fields has its reset value. -/
def State.AtReset (s : State) : Prop :=
  s = { State.reset with
    mem := s.mem, key := s.key, randCount := s.randCount, fbUpdates := s.fbUpdates, inputs := s.inputs }

theorem State.powerOn_atReset (s : State) : s.powerOn.AtReset := rfl

theorem State.resetMachine_atReset (s : State) : s.resetMachine.AtReset := by
  rw [State.AtReset, State.resetMachine]

theorem State.AtReset.getV_eq_zero {s : State} (h : s.AtReset) (r : Nibble) : s.getV r = 0 := by
  rw [h]
  simp [State.getV, State.reset]

theorem State.AtReset.stack_eq_zero {s : State} (h : s.AtReset) (j : Fin 16) : s.stack[j.val] = 0 := by
  rw [h]
  simp [State.reset]

/-! ### Power-on (spec 70 R250) -/

theorem State.getKey_powerOn (s : State) (k : Nibble) : s.powerOn.getKey k = false := by
  simp [State.getKey, State.powerOn, State.reset]

/-- The bytes from FONT_BASE upward are the font where nothing has written them (spec 20 R42). -/
theorem Memory.some_read_unwritten_font {j : Nat} (hj : j < Config.font.length) :
    some (Memory.read [] (Config.fontBase + j)) = Config.font[j]? := by
  rw [Memory.read, Memory.initial, if_pos (Nat.le_add_right _ _), Nat.add_sub_cancel_left, some_getD_of_lt hj]

theorem Memory.initial_outside_font {a : Nat} (ha : a < Config.fontBase ∨ Config.fontBase + 80 ≤ a) :
    Memory.initial a = Config.memInit := by
  rw [Memory.initial]
  split
  · exact List.getD_eq_default _ _ (by rw [font_length]; omega)
  · rfl

/-- Settles O41: power_on leaves the reset state but for the model's own fields, and its memory is unwritten. -/
theorem powerOnValues : Obligations.PowerOnValues := by
  intro s
  refine ⟨s.powerOn, rfl, s.powerOn_atReset.getV_eq_zero, rfl, rfl, rfl, s.powerOn_atReset.stack_eq_zero, rfl,
    rfl, rfl, ?_, ?_, ?_, rfl, s.getKey_powerOn, rfl, rfl, rfl, rfl, rfl, rfl, rfl, rfl⟩
  · exact fun j hj => Memory.some_read_unwritten_font hj
  · exact fun a _ ha => Memory.initial_outside_font ha
  · exact Screen.at_blank

/-! ### Reset (spec 70 R251, R252) -/

theorem State.apply_reset_of_accepted {s : State} (h : s.run = .stopped ∨ s.run = .faulted) :
    s.apply .reset = .next s.resetMachine :=
  congrArg Host.Outcome.next (State.hostReset_accepted h)

/-- The font lies inside MEM. -/
theorem font_fits : Config.fontBase + Config.font.length ≤ Config.memSize := by decide

theorem State.resetMachine_some_read_font {s : State} (hm : Memory.wf s.mem = true) {j : Nat}
    (hj : j < Config.font.length) :
    some (Memory.read s.resetMachine.mem (Config.fontBase + j)) = Config.font[j]? := by
  rw [State.resetMachine_mem, Memory.some_read_writeBytes_add font_fits hm hj]

theorem State.resetMachine_read_outside_font {s : State} (hm : Memory.wf s.mem = true) {a : Nat}
    (ha : a < Config.fontBase ∨ Config.fontBase + 80 ≤ a) :
    Memory.read s.resetMachine.mem a = Memory.read s.mem a := by
  rw [State.resetMachine_mem, Memory.read_writeBytes_outside font_fits hm ha]

/-- Settles O43: the font is written over memory, the strobe follows whether the screen was blank, and the rest is the
reset state's or kept. -/
theorem resetResult : Obligations.ResetResult := by
  intro s hm hrun
  refine ⟨s.resetMachine, State.apply_reset_of_accepted hrun, s.resetMachine_atReset.getV_eq_zero, rfl, rfl, rfl,
    s.resetMachine_atReset.stack_eq_zero, rfl, rfl, ?_, ?_, Screen.at_blank, ?_, ?_, rfl, fun _ => rfl, rfl, rfl,
    rfl, rfl, rfl, rfl, rfl⟩
  · exact fun j hj => State.resetMachine_some_read_font hm hj
  · exact fun a ha => State.resetMachine_read_outside_font hm ha
  · rintro ⟨u, v, hlit⟩
    have hb : s.fb ≠ Screen.blank := fun hb => by simp [hb] at hlit
    rw [State.resetMachine_fbUpdates, if_neg hb]
  · intro hdark
    rw [State.resetMachine_fbUpdates, if_pos (Screen.eq_blank_iff.mpr hdark)]

/-- Such a state is a fixed point of reset if its memory holds the font. -/
theorem State.AtReset.hostReset_eq_self {s : State} (h : s.AtReset) (hm : Memory.wf s.mem = true)
    (hfont : ∀ j, j < Config.font.length → some (Memory.read s.mem (Config.fontBase + j)) = Config.font[j]?) :
    s.hostReset = s := by
  have hrun : s.run = .stopped := by rw [h]; rfl
  have hfb : s.fb = Screen.blank := by rw [h]; rfl
  calc s.hostReset = s.resetMachine := State.hostReset_accepted (.inl hrun)
    _ = { State.reset with
          mem := s.mem, key := s.key, randCount := s.randCount, fbUpdates := s.fbUpdates, inputs := s.inputs } := by
        rw [State.resetMachine, Memory.writeBytes_eq_self font_fits hm hfont, if_pos hfb]
    _ = s := h.symm

/-- Settles O44: what reset and power_on leave holds the font; a reset that is ignored is ignored twice. -/
theorem resetIsIdempotent : Obligations.ResetIsIdempotent := by
  refine ⟨fun s hm => ?_, fun s => ?_⟩
  · rcases s.hostReset_cases with ⟨-, h⟩ | ⟨-, h⟩
    · rw [h]
      exact s.resetMachine_atReset.hostReset_eq_self (State.resetMachine_mem_wf hm)
        fun _ => State.resetMachine_some_read_font hm
    · rw [h, h]
  · exact s.powerOn_atReset.hostReset_eq_self rfl fun _ => Memory.some_read_unwritten_font

/-! ### Load (spec 70 R253, R256, 60 R206) -/

theorem State.apply_load_of_stopped {s : State} (h : s.run = .stopped) (l : List Byte) :
    s.apply (.load l) = .next (s.loadProgram l) :=
  congrArg Host.Outcome.next (State.hostLoad_accepted h l)

theorem State.loadProgram_of_fits {s : State} {l : List Byte} (h : l.length ≤ Config.progMax) :
    s.loadProgram l = s.setMem (Memory.writeBytes s.mem Config.progBase l) := by
  rcases s.loadProgram_cases l with ⟨-, e⟩ | ⟨hlt, -⟩
  · rw [e, List.take_of_length_le h]
  · omega

theorem State.loadProgram_of_too_long {s : State} {l : List Byte} (h : Config.progMax < l.length) :
    s.loadProgram l = (s.setMem (Memory.writeBytes s.mem Config.progBase (l.take Config.progMax))).enterFault
      ⟨.load, BitVec.ofNat 16 (min l.length 0xFFFF)⟩ (BitVec.ofNat 16 Config.progBase) := by
  rcases s.loadProgram_cases l with ⟨hle, -⟩ | ⟨-, e⟩
  · omega
  · exact e

/-- The bytes a load writes end inside MEM. -/
theorem prog_fits (l : List Byte) : Config.progBase + (l.take Config.progMax).length ≤ Config.memSize :=
  Nat.add_le_add_left (List.length_take_le _ _) _

theorem State.loadProgram_some_read {s : State} {l : List Byte} (hm : Memory.wf s.mem = true) {j : Nat}
    (hj : j < Config.progMax) (hl : j < l.length) :
    some (Memory.read (s.loadProgram l).mem (Config.progBase + j)) = l[j]? := by
  have hlen : j < (l.take Config.progMax).length := by rw [List.length_take]; omega
  rw [State.loadProgram_mem, Memory.some_read_writeBytes_add (prog_fits l) hm hlen, List.getElem?_take_of_lt hj]

theorem State.loadProgram_read_outside {s : State} {l : List Byte} (hm : Memory.wf s.mem = true) {a : Nat}
    (ha : a < Config.progBase ∨ Config.progBase + (l.take Config.progMax).length ≤ a) :
    Memory.read (s.loadProgram l).mem a = Memory.read s.mem a := by
  rw [State.loadProgram_mem, Memory.read_writeBytes_outside (prog_fits l) hm ha]

theorem State.setMem_onlyChanges (s : State) (m : Memory) : OnlyChanges [.memory] s (s.setMem m) := by
  simp [OnlyChanges, Part.forall_iff, AgreeOn]

theorem State.enterFault_onlyChanges (s : State) (r : Trap) (p : Word) :
    OnlyChanges [.faults, .run, .keyWait] s (s.enterFault r p) := by
  simp [OnlyChanges, Part.forall_iff, AgreeOn]

/-- The byte count of FAULT_INFO saturates, so it fits in 16 bits (spec 60 R206). -/
theorem saturated_toNat (n : Nat) : (BitVec.ofNat 16 (min n 0xFFFF)).toNat = min n 0xFFFF := by
  rw [BitVec.toNat_ofNat]
  omega

/-- Settles O45: the bytes that fit are written; a load that fits does no more, and a longer one is then fault
entry. -/
theorem loadResult : Obligations.LoadResult := by
  intro s bytes hm hrun
  refine ⟨_, State.apply_load_of_stopped hrun bytes, ?_, fun a ha => ?_, fun hfit => ?_, fun hlong => ?_⟩
  · exact fun j hj hl => State.loadProgram_some_read hm hj hl
  · refine State.loadProgram_read_outside hm ?_
    simp only [List.length_take, Config.progBase, Config.progMax]
    omega
  · rw [State.loadProgram_of_fits hfit]
    exact s.setMem_onlyChanges _
  · rw [State.loadProgram_of_too_long hlong]
    refine ⟨rfl, saturated_toNat _, rfl, rfl, rfl, rfl, ?_⟩
    exact ((s.setMem_onlyChanges _).mono (by simp)).trans ((State.enterFault_onlyChanges _ _ _).mono (by simp))

/-- Settles O48: both are accepted in either order, and the font lies below the program. -/
theorem resetAndLoadCommute : Obligations.ResetAndLoadCommute := by
  intro s bytes hm hrun hfit
  have hmem : Memory.writeBytes (Memory.writeBytes s.mem Config.fontBase Config.font) Config.progBase bytes =
      Memory.writeBytes (Memory.writeBytes s.mem Config.progBase bytes) Config.fontBase Config.font :=
    Memory.writeBytes_comm hm (by decide) (Nat.add_le_add_left hfit _)
  calc s.hostReset.hostLoad bytes = s.resetMachine.loadProgram bytes := by
        rw [State.hostReset_accepted (.inl hrun), State.hostLoad_accepted s.resetMachine_run]
    _ = s.resetMachine.setMem
          (Memory.writeBytes (Memory.writeBytes s.mem Config.fontBase Config.font) Config.progBase bytes) := by
        rw [State.loadProgram_of_fits hfit, State.resetMachine_mem]
    _ = (s.loadProgram bytes).resetMachine := by
        rw [hmem, State.loadProgram_of_fits hfit]
        rfl
    _ = (s.hostLoad bytes).hostReset := by
        have hstopped : (s.loadProgram bytes).run = .stopped := by rwa [State.loadProgram_of_fits hfit]
        rw [State.hostLoad_accepted hrun, State.hostReset_accepted (.inl hstopped)]

/-! ### Run, and what is ignored (spec 70 R254, R263, 10 R22) -/

theorem State.startRun_onlyChanges (s : State) :
    OnlyChanges [.cancel, .run] s ((s.setCancel false).setRun .running) := by
  simp [OnlyChanges, Part.forall_iff, AgreeOn]

/-- Settles O46: the accepted run is two writes. -/
theorem runResult : Obligations.RunResult := fun s hrun =>
  ⟨_, congrArg Host.Outcome.next (State.hostRun_accepted hrun), rfl, rfl, s.startRun_onlyChanges⟩

theorem State.hostReset_ignored {s : State} (h : s.run = .running ∨ s.run = .waitKey) : s.hostReset = s := by
  rcases s.hostReset_cases with ⟨hacc, -⟩ | ⟨-, e⟩
  · rcases h with h | h <;> simp [h] at hacc
  · exact e

theorem State.hostLoad_ignored {s : State} (h : s.run ≠ .stopped) (l : List Byte) : s.hostLoad l = s := by
  rcases s.hostLoad_cases l with ⟨hacc, -⟩ | ⟨-, e⟩
  · exact absurd hacc h
  · exact e

theorem State.hostRun_ignored {s : State} (h : s.run ≠ .stopped) : s.hostRun = s := by
  rcases s.hostRun_cases with ⟨hacc, -⟩ | ⟨-, e⟩
  · exact absurd hacc h
  · exact e

/-- Settles O47: each operation by its case of a run state that does not accept it. -/
theorem misplacedHostOperationsAreIgnored : Obligations.MisplacedHostOperationsAreIgnored := fun _ bytes =>
  ⟨fun h => congrArg Host.Outcome.next (State.hostReset_ignored h),
    fun h => ⟨congrArg Host.Outcome.next (State.hostLoad_ignored h bytes),
      congrArg Host.Outcome.next (State.hostRun_ignored h)⟩,
    State.interpreterStep_of_not_running⟩

end Sys2Proof.Machine
